-- ==== Sys2Proof/Word.lean ====
section
/-!
DEFINITION. The bus word: 32 bits, bit 0 the least significant (R11, R50).
-/

namespace Sys2Proof

/-- One 32-bit word: a command word (R70), a control register (R22) or one bus transfer (R50). -/
abbrev Word := BitVec 32

/-- A register index, the value of a 4-bit register field; every value names a register (R7, R71). -/
abbrev Reg := Fin 16

end Sys2Proof
end

