-- ==== Sys2Proof/Config.lean ====
section
/-!
DEFINITION. What is fixed for one instance of the block (the parameters of section A4 of 00_scope.md and of 92_eei_decisions.md)
and the free values of the points the spec leaves unspecified.
-/

namespace Sys2Proof

/-- The parameters of one instance of the block (R5, R6, R9, R170; 93_implementation_defined.md U7, U8).
Only legal instances can be built: R5 bounds W, R9 aligns BASE. -/
structure Config where
  /-- `NW = W / 32`, the number of 32-bit words per operand register (R6). -/
  nw : Nat
  /-- `BASE`, the bus address of the block's first register (R9). -/
  base : Nat
  /-- The host interrupt input that `irq` drives (R170). -/
  irqInput : Nat
  /-- `64 <= W` (R5). -/
  nw_ge : 2 ≤ nw
  /-- `W <= 4096` (R5). -/
  nw_le : nw ≤ 128
  /-- BASE "is aligned to 0x4000" (R9). -/
  base_aligned : base % 0x4000 = 0
  deriving DecidableEq, Repr

/-- `W`, the operand width in bits (R5, R6). -/
abbrev Config.width (c : Config) : Nat := 32 * c.nw

/-- The reference configuration, W = 64 (R5).
DESIGN CHOICE (log 1): BASE and the interrupt input are left open by the spec; here both are 0. -/
def Config.reference : Config where
  nw := 2
  base := 0
  irqInput := 0
  nw_ge := by decide
  nw_le := by decide
  base_aligned := by decide

/-- FREE VALUE (log 5): the word that the k-th draw gives to a read of the operand window made while a command is in flight:
"an unspecified 32-bit value, a draw with no law" (R56). -/
opaque Config.freeWord : Nat → Word

/-- FREE VALUE (log 4): the integer behind the value an operand register holds after a hardware reset in the middle of a run:
"unspecified" (R39, R180). -/
opaque Config.freeOperand : Nat → Nat

/-- The constant of the ID register, ASCII "MCRT" (R1, R23). -/
def Config.idConstant : Word := 0x4D435254#32

/-- The VERSION field of PARAM (R1, R24). -/
def Config.version : Nat := 0x01

/-- `NREG`, the number of operand registers (R7, R24). -/
def Config.nreg : Nat := 16

end Sys2Proof
end

