-- ==== Sys2Proof/Syntax.lean ====
section
/-!
DEFINITION. The commands of "MMCRT command set, version 1": one constructor per row of spec/opcode_table.json (R73).
-/

namespace Sys2Proof

/-- One command (R73), its register fields in the order of the syntax column: destination first, then the sources in the field
order A, B, N, X, Y, without the fields the opcode does not use (R81).
Every register index is legal (R71), so every term is a well-formed command. -/
inductive Instr where
  /-- `NOP` (R100). -/
  | nop
  /-- `MODRED rD, rA, rN` (R110). -/
  | modred (d a n : Reg)
  /-- `MODSUB rD, rA, rB, rN` (R112). -/
  | modsub (d a b n : Reg)
  /-- `MODMUL rD, rA, rB, rN` (R114). -/
  | modmul (d a b n : Reg)
  /-- `MONTMUL rD, rA, rB, rN` (R121). -/
  | montmul (d a b n : Reg)
  /-- `TOMONT rD, rA, rN` (R123). -/
  | tomont (d a n : Reg)
  /-- `FROMMONT rD, rA, rN` (R125). -/
  | frommont (d a n : Reg)
  /-- `MODEXP rD, rA, rB, rN`, base A, exponent B (R130). -/
  | modexp (d a b n : Reg)
  /-- `CRTCOMB rD, rA, rB, rN, rX, rY`: cP, cQ, p, q, qInv (R142). -/
  | crtcomb (d a b n x y : Reg)
  /-- `CRTEXP rD, rA, rB, rN, rX`: c, d, p, q (R146). -/
  | crtexp (d a b n x : Reg)
  deriving DecidableEq, Repr

end Sys2Proof
end

