-- ==== Sys2Proof/Machine/HostSyntax.lean ====
section
/-!
DEFINITION. What the outside of the block can do, as data: one bus access (R50), one event (R18, R180), one operation of the host
program notation (R83, R84), and one line of assembler text after it is read (R81).
-/

namespace Sys2Proof.Machine

/-- One transfer on the bus slave port (R50): its byte address, its size in bytes and, for a write, the data of the 32-bit data
path. Sizes and addresses the block does not define are representable, so that their ERROR response can be modelled (R51). -/
inductive Access where
  /-- A read of `bytes` bytes at `addr`. -/
  | read (addr bytes : Nat)
  /-- A write of `bytes` bytes at `addr`. -/
  | write (addr bytes : Nat) (data : Word)
  deriving DecidableEq, Repr

/-- One turn of the interleaving of host, engine and reset input (R18, R62, R172). -/
inductive Event where
  /-- The host performs one bus access. -/
  | host (a : Access)
  /-- The engine has its turn: the completion step, if a command is in flight. -/
  | engine
  /-- The reset input is asserted and released (R180). -/
  | hardReset
  deriving DecidableEq, Repr

/-- One operation of the host program notation (R83, R84). `wait polls` is the WAIT whose loop reads BUSY = 1 exactly `polls`
times before the completion (log 19). -/
inductive HostOp where
  /-- `WR rK, v`. -/
  | wr (r : Reg) (v : Nat)
  /-- `CMD <mnemonic ...>`. -/
  | cmd (i : Instr)
  /-- `CMD <raw word>`. -/
  | cmdWord (w : Word)
  /-- `WAIT`. -/
  | wait (polls : Nat)
  /-- `RDR rK`. -/
  | rdr (r : Reg)
  /-- `CLRDONE`. -/
  | clrdone
  /-- `SRST`. -/
  | srst
  /-- `MemRead(BASE + offset, 4)`. -/
  | memRead (offset : Nat)
  /-- `MemWrite(BASE + offset, 4, v)`. -/
  | memWrite (offset : Nat) (v : Word)
  deriving DecidableEq, Repr

/-- One assembler line after its text is read: the mnemonic in capitals and the register numbers written (R81). -/
structure AsmLine where
  /-- The mnemonic, in capitals. -/
  mnemonic : List Char
  /-- The register numbers, in the order written. -/
  operands : List Nat
  deriving DecidableEq, Repr

/-- The byte address of an access. -/
def Access.addr : Access → Nat
  | .read a _ => a
  | .write a _ _ => a

/-- The size of an access in bytes. -/
def Access.bytes : Access → Nat
  | .read _ b => b
  | .write _ b _ => b

/-- The accesses the block defines (R50, R51): 4 bytes, at a multiple of 4, inside [BASE, BASE + 0x4000). -/
def Access.defined (c : Config) (a : Access) : Bool :=
  a.bytes == 4 && a.addr % 4 == 0 && decide (c.base ≤ a.addr) && decide (a.addr < c.base + 0x4000)

end Sys2Proof.Machine
end

