-- ==== Sys2Proof/Machine/State.lean ====
section
/-!
DEFINITION. The state of the block (10_state.md), the events still to come, the reasons a step can stop, and the state after
reset (R39).
-/

namespace Sys2Proof.Machine

/-- The error codes a command can end with (R161); OK and the reserved codes 6 to 15, which are "never reported", are not errors. -/
inductive CmdError where
  /-- Code 1: RSV is not 0, or the opcode is reserved (R72, R74). -/
  | illegal
  /-- Code 2: a modulus the command reduces by is 0 (R162). -/
  | zmod
  /-- Code 3: the Montgomery modulus is even and not 0 (R165). -/
  | evenmod
  /-- Code 4: gcd(q, p) is not 1, the source's NoInverseError (R164). -/
  | noinv
  /-- Code 5: the exact CRT result is 2^W or more (R167). -/
  | ovf
  deriving DecidableEq, Repr

/-- The in-flight latch `lat` (R36). -/
structure Latch where
  /-- `lat.word`, the accepted command word. -/
  word : Word
  /-- `lat.D`, the destination index. -/
  d : Reg
  /-- `lat.A`. -/
  a : Nat
  /-- `lat.B`. -/
  b : Nat
  /-- `lat.N`. -/
  n : Nat
  /-- `lat.X`. -/
  x : Nat
  /-- `lat.Y`. -/
  y : Nat
  deriving DecidableEq, Repr

/-- What the port answers to one access (R50, R51). -/
inductive Response where
  /-- OKAY to a read, with its data. -/
  | okayRead (data : Word)
  /-- OKAY to a write. -/
  | okayWrite
  /-- ERROR, with the data of R51. -/
  | error (data : Word)
  deriving DecidableEq, Repr

/-- The whole state of a run: the block's architectural state (10_state.md), its configuration, and three fields of the model's
own, `agenda`, `hostLog` and `draws`. -/
structure State where
  /-- The instance's parameters; no step changes them (R5, R9). -/
  cfg : Config
  /-- `x[0]` to `x[15]`, each an unsigned integer in [0, 2^W) (R20). -/
  regs : Vector Nat 16
  /-- Which operand registers have been written since the hardware reset (R20). -/
  written : Vector Bool 16
  /-- CMD, the most recently accepted command word (R25). -/
  cmd : Word
  /-- STATUS.ERR (R26, R28). -/
  err : Bool
  /-- STATUS.OVR (R29). -/
  ovr : Bool
  /-- STATUS.ERRCODE; `none` is code 0, OK (R28, R161). -/
  errcode : Option CmdError
  /-- IRQEN.DONEIE (R30). -/
  doneie : Bool
  /-- IRQSTAT.DONE (R31). -/
  done : Bool
  /-- The in-flight latch, present exactly while STATUS.BUSY = 1 (R36, R39; log 11). -/
  lat : Option Latch
  /-- THE MODEL'S OWN: the turns still to come, oldest first (R18, R62; log 6). -/
  agenda : List Event
  /-- THE MODEL'S OWN: what the port has answered, newest first (log 10). -/
  hostLog : List Response
  /-- THE MODEL'S OWN: how many free values have been drawn (log 5). -/
  draws : Nat
  deriving DecidableEq, Repr

/-- Why the machine stops. -/
inductive Fault where
  /-- Raised by a step whose event is a bus access the block does not define: not 4 bytes, not aligned, or outside the block.
  The port answers ERROR and changes no state, and "a model treats an ERROR response as a fault of the host agent" (R51).
  Safe: the hardware goes on, the model claims nothing of such a run (log 9). -/
  | busError (a : Access)
  deriving DecidableEq, Repr

/-- Why a command has no meaning in the model. -/
inductive Refusal where
  /-- Raised by an arm of exec whose instruction has no meaning yet; no arm of this model does. Safe: nothing is claimed. -/
  | notModelled (mnemonic : String)
  deriving DecidableEq, Repr

/-- The state right after the hardware reset of an instance of the block (R39, R180): control registers at their reset values, no
command in flight, every operand register unwritten.
DESIGN CHOICE (log 2, unsafe): the spec leaves the operand registers unspecified; they are 0 here.
DESIGN CHOICE (log 5, log 6, log 10): the model's own fields are empty. -/
def State.resetOf (c : Config) : State where
  cfg := c
  regs := Vector.replicate 16 0
  written := Vector.replicate 16 false
  cmd := 0x00000000#32
  err := false
  ovr := false
  errcode := none
  doneie := false
  done := false
  lat := none
  agenda := []
  hostLog := []
  draws := 0

/-- The state right after reset, of the reference configuration (R5, R39; log 1). -/
def State.reset : State := State.resetOf Config.reference

end Sys2Proof.Machine
end

