-- ==== Sys2Proof/Machine/Flags.lean ====
section
/-!
DEFINITION. The flags (R35) and what the control registers read as (R23 to R34).
-/

namespace Sys2Proof.Machine

/-- STATUS.BUSY: a command is in flight (R27, R36; log 11). -/
def State.busy (s : State) : Bool := s.lat.isSome

/-- The number of an error code, 4 bits (R161). -/
def errCodeNumber : Option CmdError → BitVec 4
  | none => 0
  | some .illegal => 1
  | some .zmod => 2
  | some .evenmod => 3
  | some .noinv => 4
  | some .ovf => 5

/-- What STATUS reads as (R26): ERRCODE in [11:8], OVR, ERR and BUSY in [2:0], the rest 0. -/
def State.statusWord (s : State) : Word :=
  0#20 ++ errCodeNumber s.errcode ++ 0#5 ++ BitVec.ofBool s.ovr ++ BitVec.ofBool s.err ++ BitVec.ofBool s.busy

/-- What PARAM reads as: VERSION, NREG and NW (R24). -/
def State.paramWord (s : State) : Word :=
  BitVec.ofNat 8 Config.version ++ BitVec.ofNat 8 Config.nreg ++ BitVec.ofNat 16 s.cfg.nw

/-- What IRQEN reads as (R30). -/
def State.irqenWord (s : State) : Word := 0#31 ++ BitVec.ofBool s.doneie

/-- What IRQSTAT reads as (R31). -/
def State.irqstatWord (s : State) : Word := 0#31 ++ BitVec.ofBool s.done

/-- The interrupt output `irq`, "equal to IRQSTAT.DONE AND IRQEN.DONEIE at every point" (R34, R170). -/
def State.irq (s : State) : Bool := s.done && s.doneie

/-- The host interrupt input that is asserted, if `irq` is 1 (R170). -/
def State.assertedInput (s : State) : Option Nat := if s.irq then some s.cfg.irqInput else none

/-- Sets STATUS.OVR, the record of a dropped write (R29). -/
def State.setOvr (s : State) : State := { s with ovr := true }

/-- Clears STATUS.OVR (R32). -/
def State.clearOvr (s : State) : State := { s with ovr := false }

/-- The flag part of a completion (R166): ERRCODE and ERR from the code, BUSY cleared with the latch, DONE set. -/
def State.finish (s : State) (code : Option CmdError) : State :=
  { s with errcode := code, err := code.isSome, lat := none, done := true }

end Sys2Proof.Machine
end

