-- ==== Sys2Proof/Decode.lean ====
section
/-!
DEFINITION. The command word: its fields (R70), the decoder (R74, R78), the encoder (R80), and the opcode map as data (R73, R74).
-/

namespace Sys2Proof

/-- `w[lo+3:lo]`, one 4-bit field of a word (R11, R70). -/
def nibble (w : Word) (lo : Nat) : Fin 16 :=
  (w.extractLsb' lo 4).toFin

/-- OP, bits [3:0] (R70). -/
def fieldOP (w : Word) : Fin 16 := nibble w 0

/-- RD, bits [7:4] (R70). -/
def fieldRD (w : Word) : Reg := nibble w 4

/-- RA, bits [11:8] (R70). -/
def fieldRA (w : Word) : Reg := nibble w 8

/-- RB, bits [15:12] (R70). -/
def fieldRB (w : Word) : Reg := nibble w 12

/-- RN, bits [19:16] (R70). -/
def fieldRN (w : Word) : Reg := nibble w 16

/-- RX, bits [23:20] (R70). -/
def fieldRX (w : Word) : Reg := nibble w 20

/-- RY, bits [27:24] (R70). -/
def fieldRY (w : Word) : Reg := nibble w 24

/-- RSV, bits [31:28] (R70). -/
def fieldRSV (w : Word) : Fin 16 := nibble w 28

/-- Why a word is illegal (R76). Both completions report the one code ILLEGAL (R161). -/
inductive IllegalWord where
  /-- RSV is not 0 (R72). -/
  | reservedField
  /-- The opcode is in 0xA to 0xF (R76 (a)). -/
  | reservedOpcode
  deriving DecidableEq, Repr

/-- The decode function, total on every 32-bit word (R78). A field the opcode does not use is not looked at (R75). -/
def decode (w : Word) : Except IllegalWord Instr :=
  if fieldRSV w ≠ 0 then .error .reservedField
  else
    match (fieldOP w).val with
    | 0x0 => .ok .nop
    | 0x1 => .ok (.modred (fieldRD w) (fieldRA w) (fieldRN w))
    | 0x2 => .ok (.modsub (fieldRD w) (fieldRA w) (fieldRB w) (fieldRN w))
    | 0x3 => .ok (.modmul (fieldRD w) (fieldRA w) (fieldRB w) (fieldRN w))
    | 0x4 => .ok (.montmul (fieldRD w) (fieldRA w) (fieldRB w) (fieldRN w))
    | 0x5 => .ok (.tomont (fieldRD w) (fieldRA w) (fieldRN w))
    | 0x6 => .ok (.frommont (fieldRD w) (fieldRA w) (fieldRN w))
    | 0x7 => .ok (.modexp (fieldRD w) (fieldRA w) (fieldRB w) (fieldRN w))
    | 0x8 => .ok (.crtcomb (fieldRD w) (fieldRA w) (fieldRB w) (fieldRN w) (fieldRX w) (fieldRY w))
    | 0x9 => .ok (.crtexp (fieldRD w) (fieldRA w) (fieldRB w) (fieldRN w) (fieldRX w))
    | _ => .error .reservedOpcode

/-- The decoder on a word whose bits are numbered as spec/opcode_table.json numbers them. Every command is exactly 32 bits (R79),
so a word of more bits is none; the bits above `nbits` are 0. -/
def decodeTableWord (nbits w : Nat) : Option Instr :=
  if nbits ≤ 32 then
    match decode (BitVec.ofNat 32 (w % 2 ^ nbits)) with
    | .ok i => some i
    | .error _ => none
  else none

/-- A field value as a word, before it is shifted into place. -/
def fieldWord (f : Fin 16) : Word := (BitVec.ofFin (w := 4) f).setWidth 32

/-- The encoding formula of R80:
`word = OP | (RD << 4) | (RA << 8) | (RB << 12) | (RN << 16) | (RX << 20) | (RY << 24)`. -/
def packFields (op rd ra rb rn rx ry : Fin 16) : Word :=
  fieldWord op ||| fieldWord rd <<< 4 ||| fieldWord ra <<< 8 ||| fieldWord rb <<< 12 |||
    fieldWord rn <<< 16 ||| fieldWord rx <<< 20 ||| fieldWord ry <<< 24

/-- The opcode of a command (R73). -/
def Instr.opcode : Instr → Fin 16
  | .nop => 0x0
  | .modred .. => 0x1
  | .modsub .. => 0x2
  | .modmul .. => 0x3
  | .montmul .. => 0x4
  | .tomont .. => 0x5
  | .frommont .. => 0x6
  | .modexp .. => 0x7
  | .crtcomb .. => 0x8
  | .crtexp .. => 0x9

/-- The word of a command, unused fields 0 (R80, R81). -/
def encode : Instr → Word
  | .nop => packFields 0x0 0 0 0 0 0 0
  | .modred d a n => packFields 0x1 d a 0 n 0 0
  | .modsub d a b n => packFields 0x2 d a b n 0 0
  | .modmul d a b n => packFields 0x3 d a b n 0 0
  | .montmul d a b n => packFields 0x4 d a b n 0 0
  | .tomont d a n => packFields 0x5 d a 0 n 0 0
  | .frommont d a n => packFields 0x6 d a 0 n 0 0
  | .modexp d a b n => packFields 0x7 d a b n 0 0
  | .crtcomb d a b n x y => packFields 0x8 d a b n x y
  | .crtexp d a b n x => packFields 0x9 d a b n x 0

/-- The register field written: RD, of every command except NOP (R73, column "writes"). -/
def Instr.dest? : Instr → Option Reg
  | .nop => none
  | .modred d _ _ => some d
  | .modsub d _ _ _ => some d
  | .modmul d _ _ _ => some d
  | .montmul d _ _ _ => some d
  | .tomont d _ _ => some d
  | .frommont d _ _ => some d
  | .modexp d _ _ _ => some d
  | .crtcomb d _ _ _ _ _ => some d
  | .crtexp d _ _ _ _ => some d

/-- The registers a command reads (R73, column "reads"). -/
def Instr.sources : Instr → List Reg
  | .nop => []
  | .modred _ a n => [a, n]
  | .modsub _ a b n => [a, b, n]
  | .modmul _ a b n => [a, b, n]
  | .montmul _ a b n => [a, b, n]
  | .tomont _ a n => [a, n]
  | .frommont _ a n => [a, n]
  | .modexp _ a b n => [a, b, n]
  | .crtcomb _ a b n x y => [a, b, n, x, y]
  | .crtexp _ a b n x => [a, b, n, x]

/-- The bits of the word that the command's opcode uses: OP, RSV and the fields it reads or writes (R73, R75). -/
def Instr.usedMask : Instr → Word
  | .nop => 0xF000000F#32
  | .modred .. => 0xF00F0FFF#32
  | .modsub .. => 0xF00FFFFF#32
  | .modmul .. => 0xF00FFFFF#32
  | .montmul .. => 0xF00FFFFF#32
  | .tomont .. => 0xF00F0FFF#32
  | .frommont .. => 0xF00F0FFF#32
  | .modexp .. => 0xF00FFFFF#32
  | .crtcomb .. => 0xFFFFFFFF#32
  | .crtexp .. => 0xF0FFFFFF#32

/-- The mask of every row of the opcode map (R74). -/
def rowMask : Word := 0xF000000F#32

/-- The match value of the row with opcode `op` (R74). -/
def rowMatch (op : Fin 16) : Word := fieldWord op

end Sys2Proof
end

