-- ==== Sys2Proof/Machine/Operands.lean ====
section
/-!
DEFINITION. The operand registers: reading and writing one, its 32-bit words and bytes (R20, R53, R57), and the capture of a
command's operands at acceptance (R36, R77).
-/

namespace Sys2Proof.Machine

/-- `x[r]`, the value of an operand register (R17, R20). -/
def State.x (s : State) (r : Reg) : Nat := s.regs[r]

/-- `x[r] <- v`; the register is written from then on (R17, R20). -/
def State.setX (s : State) (r : Reg) (v : Nat) : State :=
  { s with regs := s.regs.set r v, written := s.written.set r true }

/-- Whether register r has been written since the hardware reset (R20). -/
def State.isWritten (s : State) (r : Reg) : Bool := s.written[r]

/-- `v[32k+31 : 32k]`, word k of an operand value (R53). -/
def operandWord (v k : Nat) : Word := BitVec.ofNat 32 (v / 2 ^ (32 * k))

/-- An operand value "with bits [32k+31 : 32k] replaced by" the word (R53). -/
def replaceWord (v k : Nat) (data : Word) : Nat :=
  v % 2 ^ (32 * k) + data.toNat * 2 ^ (32 * k) + v / 2 ^ (32 * k + 32) * 2 ^ (32 * k + 32)

/-- Byte j of an operand value in little-endian order, the bits [8j+7 : 8j] (R57). -/
def operandByte (v j : Nat) : BitVec 8 := BitVec.ofNat 8 (v / 2 ^ (8 * j))

/-- The latch that acceptance of a word takes: the word, RD, and the values of the registers its fields RA, RB, RN, RX and RY name,
"latched whatever the opcode" (R36). -/
def latchOf (w : Word) (s : State) : Latch where
  word := w
  d := fieldRD w
  a := s.x (fieldRA w)
  b := s.x (fieldRB w)
  n := s.x (fieldRN w)
  x := s.x (fieldRX w)
  y := s.x (fieldRY w)

end Sys2Proof.Machine
end

