-- ==== Sys2Proof/Machine/Ops.lean ====
section
/-!
DEFINITION. The life of a command (R160): its acceptance (R36), its completion (R166), which is also how an error is taken
(R161, R168), and the two resets that end it (R180, R181). On this block nothing is returned from (R169).
-/

namespace Sys2Proof.Machine

/-- The three outcomes of a command function (R101). -/
inductive CmdResult where
  /-- `OK(v)`. -/
  | ok (v : Nat)
  /-- `OK(none)`. -/
  | okNone
  /-- `Err(code)`. -/
  | err (e : CmdError)
  deriving DecidableEq, Repr

/-- Acceptance of a command word, one atomic step (R36). Every word is accepted (R25). -/
def State.accept (s : State) (w : Word) : State :=
  { s with lat := some (latchOf w s), cmd := w, err := false, errcode := none }

/-- The completion step's update (R166): the destination on `OK(v)` only, then ERRCODE, ERR, BUSY and DONE, and the latch is
discarded. An error writes no operand register (R168). -/
def State.complete (s : State) (l : Latch) (out : CmdResult) : State :=
  match out with
  | .ok v => (s.setX l.d v).finish none
  | .okNone => s.finish none
  | .err e => s.finish (some e)

/-- The execution template (R101): the command function is evaluated on the latch at completion and its outcome applied.
The completion step is enabled exactly when STATUS.BUSY = 1 (R18); with no command in flight nothing changes (log 7). -/
def completeWith (f : Latch → CmdResult) (s : State) : Host.Outcome State Fault Refusal :=
  match s.lat with
  | none => .next s
  | some l => .next (s.complete l (f l))

/-- Soft reset (R181): the latch is discarded with no completion, the control registers take their reset values, and the operand
registers are unchanged (R182). -/
def State.softReset (s : State) : State :=
  { s with lat := none, err := false, ovr := false, errcode := none, doneie := false, done := false, cmd := 0x00000000#32 }

/-- The unspecified value of a register after a hardware reset, a free value in [0, 2^W) (R20, R39; log 4). -/
def State.drawnOperand (s : State) (r : Reg) : Nat := Config.freeOperand (s.draws + r.val) % 2 ^ s.cfg.width

/-- Hardware reset in the middle of a run (R180): as State.resetOf, but for the operand registers, which hold unspecified values,
and for the model's own fields, which go on. -/
def State.hardReset (s : State) : State :=
  { State.resetOf s.cfg with
    regs := Vector.ofFn s.drawnOperand, agenda := s.agenda, hostLog := s.hostLog, draws := s.draws + 16 }

end Sys2Proof.Machine
end

