-- ==== Sys2Proof/Machine/Bus.lean ====
section
/-!
DEFINITION. The bus slave port: the address map (R22, R52), what a read returns and what a write does (20_memory.md).
-/

namespace Sys2Proof.Machine

/-- What a byte offset from BASE addresses (R22, R52). -/
inductive Target where
  | id | param | cmd | status | irqen | irqstat | ctrl
  /-- Word k of operand register r (R53). -/
  | operand (r : Reg) (k : Nat)
  /-- Reserved space: reads 0, writes ignored (R33, R52). -/
  | reserved
  deriving DecidableEq, Repr

/-- The control register map (R22); the rest of the control space is reserved (R33). -/
def controlOf : Nat → Target
  | 0x000 => .id
  | 0x004 => .param
  | 0x008 => .cmd
  | 0x00C => .status
  | 0x010 => .irqen
  | 0x014 => .irqstat
  | 0x018 => .ctrl
  | _ => .reserved

/-- Word k of register r, at 0x200*r + 4*k from the start of the operand window (R53). -/
def operandAt (inWindow : Nat) : Target := .operand (Fin.ofNat 16 (inWindow / 0x200)) (inWindow % 0x200 / 4)

/-- The address map, at offsets that are multiples of 4 (R52): the control space, the operand window, and the reserved space above. -/
def targetOf (off : Nat) : Target :=
  if off < 0x1000 then controlOf off
  else if off < 0x3000 then operandAt (off - 0x1000)
  else .reserved

/-- A read of the operand window while a command is in flight returns a free draw (R56); any other read does not. -/
def State.drawsOn (s : State) (t : Target) : Bool :=
  match t with
  | .operand _ _ => s.busy
  | _ => false

/-- The data a 32-bit read returns (R22 to R33, R53, R54, R56). -/
def State.readData (s : State) (t : Target) : Word :=
  match t with
  | .id => Config.idConstant
  | .param => s.paramWord
  | .cmd => s.cmd
  | .status => s.statusWord
  | .irqen => s.irqenWord
  | .irqstat => s.irqstatWord
  | .ctrl => 0x00000000#32
  | .operand r k =>
    if s.busy then Config.freeWord s.draws
    else if k < s.cfg.nw then operandWord (s.x r) k
    else 0x00000000#32
  | .reserved => 0x00000000#32

/-- A host write to CMD: acceptance when idle, dropped with OVR when busy (R25, R29). -/
def State.writeCmd (s : State) (data : Word) : State :=
  if s.busy then s.setOvr else s.accept data

/-- A host write to CTRL: soft reset, or clear overrun, or nothing; allowed while busy (R32). -/
def State.writeCtrl (s : State) (data : Word) : State :=
  if data.getLsbD 0 then s.softReset
  else if data.getLsbD 1 then s.clearOvr
  else s

/-- A host write to word k of register r: dropped with OVR when busy (R55), ignored beyond the register's width (R54), else the
32 bits addressed are replaced (R53). -/
def State.writeOperand (s : State) (r : Reg) (k : Nat) (data : Word) : State :=
  if s.busy then s.setOvr
  else if k < s.cfg.nw then s.setX r (replaceWord (s.x r) k data)
  else s

/-- What a 32-bit write does (R22, R25, R30 to R33, R52 to R55). -/
def State.writeTarget (s : State) (t : Target) (data : Word) : State :=
  match t with
  | .id => s
  | .param => s
  | .cmd => s.writeCmd data
  | .status => s
  | .irqen => { s with doneie := data.getLsbD 0 }
  | .irqstat => if data.getLsbD 0 then { s with done := false } else s
  | .ctrl => s.writeCtrl data
  | .operand r k => s.writeOperand r k data
  | .reserved => s

/-- The offset of an address from BASE. -/
def State.offset (s : State) (addr : Nat) : Nat := addr - s.cfg.base

/-- What the port answers to an access: OKAY when the access is defined, else ERROR with data 0 (R50, R51). -/
def State.respond (s : State) (a : Access) : Response :=
  if a.defined s.cfg then
    match a with
    | .read addr _ => .okayRead (s.readData (targetOf (s.offset addr)))
    | .write _ _ _ => .okayWrite
  else .error 0x00000000#32

/-- The port's answer is handed to the host: the model records it, and counts the draw if the answer was one (log 5, log 10). -/
def State.answer (s : State) (r : Response) (drawn : Bool) : State :=
  { s with hostLog := r :: s.hostLog, draws := if drawn then s.draws + 1 else s.draws }

/-- What a defined access does to the block: a read has no side effect (R60), a write does what its target says. -/
def State.access (s : State) (a : Access) : State :=
  match a with
  | .read _ _ => s
  | .write addr _ data => s.writeTarget (targetOf (s.offset addr)) data

/-- Whether the answer to an access is a free draw (R56). -/
def State.accessDraws (s : State) (a : Access) : Bool :=
  match a with
  | .read addr _ => s.drawsOn (targetOf (s.offset addr))
  | .write _ _ _ => false

/-- One host step (R18, R50, R59): a fault of the host when the access is not defined (R51, log 9), else the access takes effect
and is answered, in one atomic step. -/
def hostStep (a : Access) (s : State) : Host.Outcome State Fault Refusal :=
  if a.defined s.cfg then .next ((s.access a).answer (s.respond a) (s.accessDraws a))
  else .fault (.busError a)

end Sys2Proof.Machine
end

