-- ==== Sys2Proof/Machine/Control.lean ====
section
/-!
DEFINITION. The control commands (40_control.md).
-/

namespace Sys2Proof.Machine

/-- NOP (R100). -/
def nop (_ : Latch) : CmdResult := .okNone

/-- The completion of NOP (R100, R166). -/
def execNop (s : State) : Host.Outcome State Fault Refusal := completeWith nop s

end Sys2Proof.Machine
end

