-- ==== Sys2Proof/Machine/Arith.lean ====
section
/-!
DEFINITION. The integer functions of 00_scope.md section A5 and 44_crt.md rule R143, as exact functions on unbounded integers.
-/

namespace Sys2Proof.Machine

/-- `a mod N` for an integer `a`, possibly negative, and N > 0: the floor remainder, in [0, N) (R12). -/
def modZ (a : Int) (N : Nat) : Nat := (a % (N : Int)).toNat

/-- `extendedGcd(a, b)` as `(g, x, y)` with `a*x + b*y = g`, base case `a = 0 → (b, 0, 1)` (R13), on enough fuel.
Which pair it finds is not observable (R13). -/
def extendedGcdFuel : Nat → Nat → Nat → Nat × Int × Int
  | 0, _, b => (b, 0, 1)
  | fuel + 1, a, b =>
    if a = 0 then (b, 0, 1)
    else
      match extendedGcdFuel fuel (b % a) a with
      | (g, x, y) => (g, y - (b / a : Nat) * x, x)

/-- `extendedGcd(a, b)` (R13). -/
def extendedGcd (a b : Nat) : Nat × Int × Int := extendedGcdFuel a a b

/-- `modInverse(a, n)` for n >= 1 (R14): fails, here `none`, exactly when gcd(a, n) is not 1. -/
def modInverse (a n : Nat) : Option Nat :=
  if Nat.gcd a n = 1 then some (modZ (extendedGcd a n).2.1 n) else none

/-- `powmod` by squaring (R15, R132: "Only the result is normative here"), on enough fuel. -/
def powmodFuel : Nat → Nat → Nat → Nat → Nat
  | 0, _, _, N => 1 % N
  | fuel + 1, a, b, N =>
    if b = 0 then 1 % N
    else if b % 2 = 1 then a * powmodFuel fuel (a * a % N) (b / 2) N % N
    else powmodFuel fuel (a * a % N) (b / 2) N

/-- `powmod(a, b, N)`, the value of a^b mod N for N >= 1, with a^0 = 1 for every a (R15). -/
def powmod (a b N : Nat) : Nat := powmodFuel b a b N

/-- `Rinv(N) = modInverse(Rm mod N, N)` with Rm = 2^W, defined for odd N (R8, R16, R120). -/
def montRinv (W N : Nat) : Option Nat := modInverse (2 ^ W % N) N

/-- `montgomery(a, b, N) = (a * b * Rinv(N)) mod N`, defined for odd N (R16, R120). -/
def montgomery (W a b N : Nat) : Option Nat :=
  match montRinv W N with
  | some rinv => some (a * b * rinv % N)
  | none => none

/-- `crt_combine(cP, cQ, p, q, qInv)`, for p >= 1 (R143). -/
def crtCombine (cP cQ p q qInv : Nat) : Nat :=
  let t : Int := (cP : Int) - (cQ : Int)
  let h : Nat := modZ (t * qInv) p
  cQ + h * q

end Sys2Proof.Machine
end

