-- ==== Sys2Proof/Machine/Crt.lean ====
section
/-!
DEFINITION. The CRT combiner and the CRT private-key operation (44_crt.md).
-/

namespace Sys2Proof.Machine

/-- The last check of both CRT commands: OVF when the exact m does not fit in W bits (R167). -/
def fitted (W m : Nat) : CmdResult :=
  if 2 ^ W ≤ m then .err .ovf else .ok m

/-- CRTCOMB (R142): cP = A, cQ = B, p = N, q = X, qInv = Y, each used as given (R143, R152). -/
def crtcomb (W : Nat) (l : Latch) : CmdResult :=
  if l.n = 0 then .err .zmod else fitted W (crtCombine l.a l.b l.n l.x l.y)

/-- CRTEXP (R146): c = A, d = B, p = N, q = X; the checks in the order of the source's steps (R148). -/
def crtexp (W : Nat) (l : Latch) : CmdResult :=
  if l.n ≤ 1 ∨ l.x ≤ 1 then .err .zmod
  else
    match modInverse l.x l.n with
    | none => .err .noinv
    | some qInv =>
      fitted W
        (crtCombine (powmod l.a (l.b % (l.n - 1)) l.n) (powmod l.a (l.b % (l.x - 1)) l.x) l.n l.x qInv)

/-- The completion of CRTCOMB (R142, R166). -/
def execCrtcomb (s : State) : Host.Outcome State Fault Refusal := completeWith (crtcomb s.cfg.width) s

/-- The completion of CRTEXP (R146, R166). -/
def execCrtexp (s : State) : Host.Outcome State Fault Refusal := completeWith (crtexp s.cfg.width) s

end Sys2Proof.Machine
end

