-- ==== Sys2Proof/Machine/ModExp.lean ====
section
/-!
DEFINITION. Modular exponentiation (43_modexp.md).
-/

namespace Sys2Proof.Machine

/-- MODEXP (R130): any modulus but 0, even ones too. -/
def modexp (l : Latch) : CmdResult :=
  if l.n = 0 then .err .zmod else .ok (powmod l.a l.b l.n)

/-- The completion of MODEXP (R130, R166). -/
def execModexp (s : State) : Host.Outcome State Fault Refusal := completeWith modexp s

end Sys2Proof.Machine
end

