-- ==== Sys2Proof/Machine/Modular.lean ====
section
/-!
DEFINITION. Modular reduction, subtraction and multiplication (41_modular.md).
-/

namespace Sys2Proof.Machine

/-- MODRED (R110). -/
def modred (l : Latch) : CmdResult :=
  if l.n = 0 then .err .zmod else .ok (l.a % l.n)

/-- MODSUB (R112): the subtraction is over the integers, the result the floor remainder (R113). -/
def modsub (l : Latch) : CmdResult :=
  if l.n = 0 then .err .zmod else .ok (modZ ((l.a : Int) - (l.b : Int)) l.n)

/-- MODMUL (R114). -/
def modmul (l : Latch) : CmdResult :=
  if l.n = 0 then .err .zmod else .ok (l.a * l.b % l.n)

/-- The completion of MODRED (R110, R166). -/
def execModred (s : State) : Host.Outcome State Fault Refusal := completeWith modred s

/-- The completion of MODSUB (R112, R166). -/
def execModsub (s : State) : Host.Outcome State Fault Refusal := completeWith modsub s

/-- The completion of MODMUL (R114, R166). -/
def execModmul (s : State) : Host.Outcome State Fault Refusal := completeWith modmul s

end Sys2Proof.Machine
end

