-- ==== Sys2Proof/Machine/Montgomery.lean ====
section
/-!
DEFINITION. The Montgomery commands (42_montgomery.md), with radix 2^W (R8).
-/

namespace Sys2Proof.Machine

/-- The checks every Montgomery command makes on its modulus, in this order: ZMOD, then EVENMOD (R163, R165). -/
def withOddModulus (N : Nat) (value : Option Nat) : CmdResult :=
  if N = 0 then .err .zmod
  else if N % 2 = 0 then .err .evenmod
  else
    match value with
    | some v => .ok v
    | none => .err .evenmod

/-- MONTMUL (R121). -/
def montmul (W : Nat) (l : Latch) : CmdResult := withOddModulus l.n (montgomery W l.a l.b l.n)

/-- TOMONT (R123). -/
def tomont (W : Nat) (l : Latch) : CmdResult := withOddModulus l.n (some (l.a * 2 ^ W % l.n))

/-- FROMMONT (R125). -/
def frommont (W : Nat) (l : Latch) : CmdResult := withOddModulus l.n (montgomery W l.a 1 l.n)

/-- The completion of MONTMUL (R121, R166). -/
def execMontmul (s : State) : Host.Outcome State Fault Refusal := completeWith (montmul s.cfg.width) s

/-- The completion of TOMONT (R123, R166). -/
def execTomont (s : State) : Host.Outcome State Fault Refusal := completeWith (tomont s.cfg.width) s

/-- The completion of FROMMONT (R125, R166). -/
def execFrommont (s : State) : Host.Outcome State Fault Refusal := completeWith (frommont s.cfg.width) s

end Sys2Proof.Machine
end

