-- ==== Sys2Proof/Machine/Dispatch.lean ====
section
/-!
DEFINITION. One arm per command: its completion step, on the operands the latch holds (R101, R166).
-/

namespace Sys2Proof.Machine

def exec (i : Instr) (s : State) : Host.Outcome State Fault Refusal :=
  match i with
  | .nop => Sys2Proof.Machine.execNop s
  | .modred _ _ _ => Sys2Proof.Machine.execModred s
  | .modsub _ _ _ _ => Sys2Proof.Machine.execModsub s
  | .modmul _ _ _ _ => Sys2Proof.Machine.execModmul s
  | .montmul _ _ _ _ => Sys2Proof.Machine.execMontmul s
  | .tomont _ _ _ => Sys2Proof.Machine.execTomont s
  | .frommont _ _ _ => Sys2Proof.Machine.execFrommont s
  | .modexp _ _ _ _ => Sys2Proof.Machine.execModexp s
  | .crtcomb _ _ _ _ _ _ => Sys2Proof.Machine.execCrtcomb s
  | .crtexp _ _ _ _ _ => Sys2Proof.Machine.execCrtexp s

end Sys2Proof.Machine
end

