-- ==== Sys2Proof/Machine/Engine.lean ====
section
/-!
DEFINITION. The engine's turn: decode the latched word and complete it (R78, R166).
-/

namespace Sys2Proof.Machine

/-- The completion of an illegal word: ERRCODE = ILLEGAL, nothing computed, nothing written (R161). -/
def completeIllegal (s : State) : Host.Outcome State Fault Refusal := completeWith (fun _ => .err .illegal) s

/-- The engine's turn (R18, R166). "Decoding takes place at completion, from `lat.word`" and its verdict is the first check of
every command (R78, R163). With no command in flight the turn passes (R18; log 7). -/
def engineStep (s : State) : Host.Outcome State Fault Refusal :=
  match s.lat with
  | none => .next s
  | some l =>
    match decode l.word with
    | .ok i => exec i s
    | .error _ => completeIllegal s

end Sys2Proof.Machine
end

