-- ==== Sys2Proof/Machine/Step.lean ====
section
/-!
DEFINITION. One step of the interleaving of host, engine and reset input (R18, R62, R172), and the placing of one command.
-/

namespace Sys2Proof.Machine

/-- One step: the oldest event of the agenda happens. When the agenda is empty the host is silent, and the engine has its turn: the
completion "is taken after finitely many host steps" (R18; log 6). -/
def step (s : State) : Host.Outcome State Fault Refusal :=
  match s.agenda with
  | [] => engineStep s
  | .engine :: rest => engineStep { s with agenda := rest }
  | .host a :: rest => hostStep a { s with agenda := rest }
  | .hardReset :: rest => .next { s with agenda := rest }.hardReset

/-- `s` with the command word in flight and the engine's turn next, so that the very next step decodes and runs it. The block does
not fetch (R21): a command comes to run by its acceptance (R36, R160), and this is that (log 8). -/
def State.withFetchWord (s : State) (nbits w : Nat) : State :=
  { s.accept (BitVec.ofNat 32 (w % 2 ^ nbits)) with agenda := .engine :: s.agenda }

end Sys2Proof.Machine
end

