-- ==== Sys2Proof/Machine/HostProgram.lean ====
section
/-!
DEFINITION. The host program notation of R83 and R84: each operation as the events it stands for.
-/

namespace Sys2Proof.Machine

/-- The bus address of word k of register r (R53). -/
def operandAddr (c : Config) (r : Reg) (k : Nat) : Nat := c.base + 0x1000 + 0x200 * r.val + 4 * k

/-- A 32-bit read of STATUS (R26, R83). -/
def readStatus (c : Config) : Event := .host (.read (c.base + 0x00C) 4)

/-- A 32-bit write to CMD (R25, R84). -/
def issue (c : Config) (w : Word) : Event := .host (.write (c.base + 0x008) 4 w)

/-- The events of one operation (R83, R84). The loop of WAIT reads STATUS until BUSY = 0: `polls` reads before the completion and
one after it (log 19). -/
def HostOp.events (c : Config) : HostOp → List Event
  | .wr r v => (List.range c.nw).map fun k => .host (.write (operandAddr c r k) 4 (operandWord v k))
  | .cmd i => [issue c (encode i)]
  | .cmdWord w => [issue c w]
  | .wait polls => List.replicate polls (readStatus c) ++ [.engine, readStatus c]
  | .rdr r => (List.range c.nw).map fun k => .host (.read (operandAddr c r k) 4)
  | .clrdone => [.host (.write (c.base + 0x014) 4 0x00000001#32)]
  | .srst => [.host (.write (c.base + 0x018) 4 0x00000001#32)]
  | .memRead off => [.host (.read (c.base + off) 4)]
  | .memWrite off v => [.host (.write (c.base + off) 4 v)]

/-- The events of a host program, "the host's sequence of bus accesses" (R21, R84). -/
def programEvents (c : Config) (ops : List HostOp) : List Event := ops.flatMap (HostOp.events c)

/-- The value RDR assembles from the words it read, word NW-1 most significant (R84). -/
def assembleWords : List Word → Nat
  | [] => 0
  | w :: ws => w.toNat + 2 ^ 32 * assembleWords ws

end Sys2Proof.Machine
end

