-- ==== Sys2Proof/Machine/Assembler.lean ====
section
/-!
DEFINITION. The assembler syntax of R81 and the pseudo-instructions of R82, from the characters of one line to a command.
-/

namespace Sys2Proof.Machine

/-- The mnemonics of R73 and the pseudo-instructions of R82. -/
inductive Mnemonic where
  | nop | modred | modsub | modmul | montmul | tomont | frommont | modexp | crtcomb | crtexp
  | modsqr | montsqr | encrypt | decrypt | decryptcrt | sign | signcrt | fermat
  deriving DecidableEq, Repr

/-- Every mnemonic, those of R73 first. -/
def Mnemonic.all : List Mnemonic :=
  [.nop, .modred, .modsub, .modmul, .montmul, .tomont, .frommont, .modexp, .crtcomb, .crtexp] ++
  [.modsqr, .montsqr, .encrypt, .decrypt, .decryptcrt, .sign, .signcrt, .fermat]

/-- The spelling of a mnemonic, in capitals (R73, R82). -/
def Mnemonic.spelling : Mnemonic → List Char
  | .nop => ['N', 'O', 'P']
  | .modred => ['M', 'O', 'D', 'R', 'E', 'D']
  | .modsub => ['M', 'O', 'D', 'S', 'U', 'B']
  | .modmul => ['M', 'O', 'D', 'M', 'U', 'L']
  | .montmul => ['M', 'O', 'N', 'T', 'M', 'U', 'L']
  | .tomont => ['T', 'O', 'M', 'O', 'N', 'T']
  | .frommont => ['F', 'R', 'O', 'M', 'M', 'O', 'N', 'T']
  | .modexp => ['M', 'O', 'D', 'E', 'X', 'P']
  | .crtcomb => ['C', 'R', 'T', 'C', 'O', 'M', 'B']
  | .crtexp => ['C', 'R', 'T', 'E', 'X', 'P']
  | .modsqr => ['M', 'O', 'D', 'S', 'Q', 'R']
  | .montsqr => ['M', 'O', 'N', 'T', 'S', 'Q', 'R']
  | .encrypt => ['E', 'N', 'C', 'R', 'Y', 'P', 'T']
  | .decrypt => ['D', 'E', 'C', 'R', 'Y', 'P', 'T']
  | .decryptcrt => ['D', 'E', 'C', 'R', 'Y', 'P', 'T', 'C', 'R', 'T']
  | .sign => ['S', 'I', 'G', 'N']
  | .signcrt => ['S', 'I', 'G', 'N', 'C', 'R', 'T']
  | .fermat => ['F', 'E', 'R', 'M', 'A', 'T']

/-- The mnemonic spelled by these capitals, if any. -/
def Mnemonic.ofSpelling (cs : List Char) : Option Mnemonic :=
  Mnemonic.all.find? fun m => m.spelling == cs

/-- How many operands a mnemonic takes (R73 and R82, syntax columns). -/
def Mnemonic.arity : Mnemonic → Nat
  | .nop => 0
  | .modred | .tomont | .frommont | .modsqr | .montsqr | .fermat => 3
  | .modsub | .modmul | .montmul | .modexp | .encrypt | .decrypt | .sign => 4
  | .crtexp | .decryptcrt | .signcrt => 5
  | .crtcomb => 6

/-- The command of a mnemonic with its operands, destination first (R81), a pseudo-instruction by its expansion (R82);
`none` when the operand count differs from the syntax column. -/
def Mnemonic.build : Mnemonic → List Reg → Option Instr
  | .nop, [] => some .nop
  | .modred, [d, a, n] => some (.modred d a n)
  | .modsub, [d, a, b, n] => some (.modsub d a b n)
  | .modmul, [d, a, b, n] => some (.modmul d a b n)
  | .montmul, [d, a, b, n] => some (.montmul d a b n)
  | .tomont, [d, a, n] => some (.tomont d a n)
  | .frommont, [d, a, n] => some (.frommont d a n)
  | .modexp, [d, a, b, n] => some (.modexp d a b n)
  | .crtcomb, [d, a, b, n, x, y] => some (.crtcomb d a b n x y)
  | .crtexp, [d, a, b, n, x] => some (.crtexp d a b n x)
  | .modsqr, [d, a, n] => some (.modmul d a a n)
  | .montsqr, [d, a, n] => some (.montmul d a a n)
  | .encrypt, [c, m, e, n] => some (.modexp c m e n)
  | .decrypt, [m, c, d, n] => some (.modexp m c d n)
  | .decryptcrt, [m, c, d, p, q] => some (.crtexp m c d p q)
  | .sign, [s, m, d, n] => some (.modexp s m d n)
  | .signcrt, [s, m, d, p, q] => some (.crtexp s m d p q)
  | .fermat, [b, a, p] => some (.modexp b a p p)
  | _, _ => none

/-- Why a line does not assemble (R81). -/
inductive AsmError where
  /-- The mnemonic is none of R73 and R82. -/
  | unknownMnemonic
  /-- An operand is not a register `r0` to `r15`. -/
  | badRegister
  /-- "An operand count that differs from the syntax column is an assembly error, never silently padded" (R81). -/
  | operandCount
  deriving DecidableEq, Repr

/-- A register number as an index, if it is one (R7, R81). -/
def regOfNumber (n : Nat) : Option Reg :=
  if h : n < 16 then some ⟨n, h⟩ else none

/-- The command of a line that has been read (R81, R82). -/
def AsmLine.toInstr (l : AsmLine) : Except AsmError Instr :=
  match Mnemonic.ofSpelling l.mnemonic with
  | none => .error .unknownMnemonic
  | some m =>
    match l.operands.mapM regOfNumber with
    | none => .error .badRegister
    | some rs =>
      match m.build rs with
      | none => .error .operandCount
      | some i => .ok i

/-- Space and tab separate the parts of a line (DESIGN CHOICE, log 18). -/
def isBlankChar (c : Char) : Bool := c == ' ' || c == '\t'

/-- A piece of text without the blanks around it. -/
def trimBlanks (cs : List Char) : List Char :=
  ((cs.dropWhile isBlankChar).reverse.dropWhile isBlankChar).reverse

/-- The text before the comment: "`;` starts a comment that runs to the end of the line" (R81). -/
def withoutComment (cs : List Char) : List Char := cs.takeWhile (· != ';')

/-- The pieces of a text between its commas. -/
def splitAtCommas : List Char → List (List Char)
  | [] => [[]]
  | c :: cs =>
    if c == ',' then [] :: splitAtCommas cs
    else
      match splitAtCommas cs with
      | [] => [[c]]
      | p :: ps => (c :: p) :: ps

/-- The value of a decimal digit. -/
def digitValue (c : Char) : Option Nat :=
  if c.isDigit then some (c.toNat - '0'.toNat) else none

/-- A register operand: `r` or `R` and the register's number in decimal, without leading zeros (R81; DESIGN CHOICE, log 18). -/
def readRegister (cs : List Char) : Option Nat :=
  match cs with
  | r :: d :: ds =>
    if r == 'r' || r == 'R' then
      match (d :: ds).mapM digitValue with
      | none => none
      | some (0 :: _ :: _) => none
      | some vs => some (vs.foldl (fun n v => 10 * n + v) 0)
    else none
  | _ => none

/-- The operands of a line: none at all, or registers between commas (R81). -/
def readOperands (cs : List Char) : Option (List Nat) :=
  match trimBlanks cs with
  | [] => some []
  | t => (splitAtCommas t).mapM fun p => readRegister (trimBlanks p)

/-- What one line of assembler text says. -/
inductive AsmResult where
  /-- Nothing: the line is blank or holds only a comment (DESIGN CHOICE, log 18). -/
  | blank
  /-- One command (R81: one command per line). -/
  | command (i : Instr)
  /-- An assembly error. -/
  | error (e : AsmError)
  deriving DecidableEq, Repr

/-- The assembler on one line of text; mnemonics and register names are case-insensitive (R81). -/
def assemble (line : List Char) : AsmResult :=
  match trimBlanks (withoutComment line) with
  | [] => .blank
  | t =>
    match readOperands (t.dropWhile fun c => !isBlankChar c) with
    | none => .error .badRegister
    | some ops =>
      match AsmLine.toInstr ⟨(t.takeWhile fun c => !isBlankChar c).map Char.toUpper, ops⟩ with
      | .error e => .error e
      | .ok i => .command i

end Sys2Proof.Machine
end

