-- ==== Sys2Proof/WellFormed.lean ====
section
/-!
DEFINITION. The checks on what is handed to the machine. A term of Instr needs none: every value of a register field is a register
and every opcode of the type is in the map (R71, R73). What can be ill-formed is a bus access (R51), an operation of the host
program notation (R84) and a line of assembler text (R81).
-/

namespace Sys2Proof.Machine

/-- A bus access the block defines (R51). -/
def Access.wellFormed (c : Config) (a : Access) : Bool := a.defined c

/-- An operation of the host program notation: `WR` "requires 0 <= v < 2^W" (R84), and a raw access is a defined one (R51). -/
def HostOp.wellFormed (c : Config) : HostOp → Bool
  | .wr _ v => decide (v < 2 ^ c.width)
  | .cmd _ => true
  | .cmdWord _ => true
  | .wait _ => true
  | .rdr _ => true
  | .clrdone => true
  | .srst => true
  | .memRead off => (Access.read (c.base + off) 4).defined c
  | .memWrite off v => (Access.write (c.base + off) 4 v).defined c

/-- A line the assembler accepts (R81): a known mnemonic, registers r0 to r15, and the operand count of the syntax column. -/
def AsmLine.wellFormed (l : AsmLine) : Bool :=
  match l.toInstr with
  | .ok _ => true
  | .error _ => false

end Sys2Proof.Machine
end

