-- ==== Sys2Proof/Safety.lean ====
section
/-!
DEFINITION. The terms claims use: the invariant of a run, the hazards of the in-flight window (70_reset_and_hazards.md), the use of
an unwritten register (93_implementation_defined.md U1), and a safe step.
-/

namespace Sys2Proof.Machine

/-- "Each holds an unsigned integer in [0, 2^W)" (R20). -/
def State.regsInRange (s : State) : Prop := ∀ r : Reg, s.x r < 2 ^ s.cfg.width

/-- The latch holds what an acceptance of its word would latch now: "snapshot-at-acceptance and read-at-completion give the same
result in every run" (R36). -/
def State.latchFresh (s : State) : Prop := ∀ l, s.lat = some l → l = latchOf l.word s

/-- While a command is in flight, CMD reads back its word (R25, R36). -/
def State.cmdIsLatched (s : State) : Prop := ∀ l, s.lat = some l → s.cmd = l.word

/-- "ERR = 1 exactly when ERRCODE != 0, at every observable point" (R26). -/
def State.errAgrees (s : State) : Prop := s.err = s.errcode.isSome

/-- "ERRCODE = 0 and ERR = 0 while a command is in flight" (R28). -/
def State.noErrorInFlight (s : State) : Prop := s.busy = true → s.errcode = none ∧ s.err = false

/-- The invariant of every run. -/
structure State.Inv (s : State) : Prop where
  /-- Operand registers are W bits wide (R20). -/
  regs : s.regsInRange
  /-- The latch is fresh (R36). -/
  latch : s.latchFresh
  /-- CMD is the word in flight (R25). -/
  cmd : s.cmdIsLatched
  /-- ERR says whether ERRCODE is 0 (R26). -/
  err : s.errAgrees
  /-- No error is shown while a command is in flight (R28). -/
  clean : s.noErrorInFlight

/-- The hazards that one host access can run into (R184). -/
inductive Hazard where
  /-- An operand register is read while a command is in flight (R185). -/
  | resultRead
  /-- An operand register is written while a command is in flight (R186). -/
  | operandWrite
  /-- CMD is written while a command is in flight (R187). -/
  | commandIssue
  deriving DecidableEq, Repr

/-- The hazard of an access in a state (R185 to R187). -/
def State.accessHazard (s : State) (a : Access) : Option Hazard :=
  if s.busy && a.defined s.cfg then
    match a, targetOf (s.offset a.addr) with
    | .read .., .operand .. => some .resultRead
    | .write .., .operand .. => some .operandWrite
    | .write .., .cmd => some .commandIssue
    | _, _ => none
  else none

/-- The hazard of the next step. -/
def State.hazard (s : State) : Option Hazard :=
  match s.agenda with
  | .host a :: _ => s.accessHazard a
  | _ => none

/-- The next step is a CMD write with DONE still set: a host that waits on DONE must not make it (R189). -/
def State.issuesWithStaleDone (s : State) : Bool :=
  match s.agenda with
  | .host (.write addr _ _) :: _ => s.done && !s.busy && targetOf (s.offset addr) == .cmd
  | _ => false

/-- The engine's turn would complete a command that reads a register nothing has written (U1; "reads" as in R73, R76 (e)). -/
def State.commandUsesUnwritten (s : State) : Bool :=
  match s.lat with
  | none => false
  | some l =>
    match decode l.word with
    | .ok i => i.sources.any fun r => !s.isWritten r
    | .error _ => false

/-- The access reads a word of a register nothing has written (U1). -/
def State.readsUnwritten (s : State) (a : Access) : Bool :=
  match a with
  | .read addr _ =>
    match targetOf (s.offset addr) with
    | .operand r k => !s.busy && decide (k < s.cfg.nw) && !s.isWritten r
    | _ => false
  | .write .. => false

/-- The next step uses a register nothing has written since the hardware reset: the runs that
93_implementation_defined.md U1 asks a model to fault (log 2, log 3). -/
def State.usesUnwritten (s : State) : Bool :=
  match s.agenda with
  | [] => s.commandUsesUnwritten
  | .engine :: _ => s.commandUsesUnwritten
  | .host a :: _ => s.readsUnwritten a
  | .hardReset :: _ => false

/-- The next step's access, if it is one, is defined (R51). -/
def State.nextAccessDefined (s : State) : Bool :=
  match s.agenda with
  | .host a :: _ => a.defined s.cfg
  | _ => true

/-- A safe next step: no ERROR response (R51), no hazard (R184), no use of an unwritten register (U1). -/
def State.stepSafe (s : State) : Bool :=
  s.nextAccessDefined && s.hazard.isNone && !s.usesUnwritten

end Sys2Proof.Machine
end

