-- ==== Sys2Proof/Certificates/Slice0/Obligations.lean ====
section
/-!
DEFINITION. The statements for the provers. Each formalises rules of spec/, named in its docstring.
-/

namespace Sys2Proof.Claims

open Sys2Proof.Machine

/-! ### The states the rules give, written out -/

/-- The state after word `w` was accepted in the idle state `s` and its command completed with `OK(v)` on destination `d`
(R36, R166): every field the two rules do not name is that of `s`. -/
def afterOk (s : State) (w : Word) (d : Reg) (v : Nat) : State :=
  { s with
    regs := s.regs.set d v, written := s.written.set d true, cmd := w, lat := none
    err := false, errcode := none, done := true }

/-- As `afterOk`, for `OK(none)`. -/
def afterOkNone (s : State) (w : Word) : State :=
  { s with cmd := w, lat := none, err := false, errcode := none, done := true }

/-- As `afterOk`, for an error: no operand register is written (R168). -/
def afterErr (s : State) (w : Word) (e : CmdError) : State :=
  { s with cmd := w, lat := none, err := true, errcode := some e, done := true }

/-- The latch that holds the values of `s` in the registers that bits [11:8], [15:12], [19:16], [23:20] and [27:24] of `w` name (R36). -/
def latched (s : State) (w : Word) : Latch where
  word := w
  d := Fin.ofNat 16 (w.toNat / 2 ^ 4)
  a := s.x (Fin.ofNat 16 (w.toNat / 2 ^ 8))
  b := s.x (Fin.ofNat 16 (w.toNat / 2 ^ 12))
  n := s.x (Fin.ofNat 16 (w.toNat / 2 ^ 16))
  x := s.x (Fin.ofNat 16 (w.toNat / 2 ^ 20))
  y := s.x (Fin.ofNat 16 (w.toNat / 2 ^ 24))

/-- The next event is a 4-byte read at `BASE + off`, and `rest` follows. -/
def nextReads (s : State) (off : Nat) (rest : List Event) : Prop :=
  s.agenda = .host (.read (s.cfg.base + off) 4) :: rest

/-- The next event is a 4-byte write of `v` at `BASE + off`, and `rest` follows. -/
def nextWrites (s : State) (off : Nat) (v : Word) (rest : List Event) : Prop :=
  s.agenda = .host (.write (s.cfg.base + off) 4 v) :: rest

/-- The next event is the engine's turn: it has it by name, or the agenda is empty (log 6). -/
def engineNext (s : State) (rest : List Event) : Prop :=
  s.agenda = .engine :: rest ∨ (s.agenda = [] ∧ rest = [])

/-- The bits of a Boolean as a number. -/
def bit (b : Bool) : Nat := if b then 1 else 0

/-- The number of an error code (R161). -/
def codeOf : Option CmdError → Nat
  | none => 0
  | some .illegal => 1
  | some .zmod => 2
  | some .evenmod => 3
  | some .noinv => 4
  | some .ovf => 5

/-- The recombination of R143, in the rule's own words, with floor remainder `Int.emod` for the positive `p`. -/
def recombined (cP cQ p q qInv : Nat) : Int := cQ + (((cP : Int) - cQ) * qInv) % p * q

/-- `v` is the inverse of `a` modulo `n` in [0, n) (R14). -/
def isInverse (v a n : Nat) : Prop := v < n ∧ a * v % n = 1 % n

/-- A valid key (glossary of 00_scope.md), its modulus and exponents fit for one operand register. -/
structure ValidKey (p q e d : Nat) : Prop where
  p_prime : p.Prime
  q_prime : q.Prime
  distinct : p ≠ q
  e_coprime : Nat.gcd e (Nat.lcm (p - 1) (q - 1)) = 1
  inverse : e * d % Nat.lcm (p - 1) (q - 1) = 1

/-- What the command of word `w` ends in, accepted in state `s` and completed with no event between (R36, R166). -/
def completed (s : State) (w : Word) : Host.Outcome State Fault Refusal := engineStep (s.accept w)

end Sys2Proof.Claims

open Sys2Proof Sys2Proof.Machine Sys2Proof.Claims

/-! ### Encoding -/

/-- R70: the eight 4-bit fields of the command word, "so each hex digit is one field". -/
def Obligations.CommandWordHasEightNibbleFields : Prop :=
  ∀ w : Word,
    (fieldOP w).val = w.toNat % 16 ∧ (fieldRD w).val = w.toNat / 16 % 16 ∧
    (fieldRA w).val = w.toNat / 16 ^ 2 % 16 ∧ (fieldRB w).val = w.toNat / 16 ^ 3 % 16 ∧
    (fieldRN w).val = w.toNat / 16 ^ 4 % 16 ∧ (fieldRX w).val = w.toNat / 16 ^ 5 % 16 ∧
    (fieldRY w).val = w.toNat / 16 ^ 6 % 16 ∧ (fieldRSV w).val = w.toNat / 16 ^ 7

/-- The words of 95_test_vectors.md, V-ENC-1 to V-ENC-10, written out from R70 and R80. -/
def Obligations.SpecWordsDecodeAsListed : Prop :=
  decode 0x00021037#32 = .ok (.modexp 3 0 1 2) ∧
  decode 0x05421038#32 = .ok (.crtcomb 3 0 1 2 4 5) ∧
  decode 0x00421039#32 = .ok (.crtexp 3 0 1 2 4) ∧
  decode 0x0FFFFFF7#32 = .ok (.modexp 15 15 15 15) ∧
  decode 0x0FFFFFF0#32 = .ok .nop ∧
  decode 0x0002103A#32 = .error .reservedOpcode ∧
  decode 0x0002103F#32 = .error .reservedOpcode ∧
  decode 0x10021037#32 = .error .reservedField ∧
  decode 0xF0000000#32 = .error .reservedField ∧
  decode 0x00000000#32 = .ok .nop ∧
  decode 0x00021034#32 = .ok (.montmul 3 0 1 2) ∧
  decode 0x00020031#32 = .ok (.modred 3 0 2)

/-- R78 and R80: decoding the encoding of any command, at every register number, gives the command back. -/
def Obligations.DecodeOfEncodeIsTheCommand : Prop :=
  ∀ i : Instr, decode (encode i) = .ok i

/-- R75, R80, R81: encoding what a word decodes to gives the word with its unused fields set to 0. -/
def Obligations.EncodeOfDecodeClearsUnusedFields : Prop :=
  ∀ (w : Word) (i : Instr), decode w = .ok i → encode i = w &&& i.usedMask

/-- R74, R72: a word selects the row of its OP exactly when RSV = 0 and OP <= 9, which is exactly when it matches the row under the
mask 0xF000000F; any other word is accepted and completes with error ILLEGAL. -/
def Obligations.WordSelectsItsOpcodeRow : Prop :=
  (∀ (w : Word) (op : Fin 16),
    ((∃ i, decode w = .ok i ∧ i.opcode = op) ↔ (w.toNat / 2 ^ 28 = 0 ∧ w.toNat % 16 = op.val ∧ op.val ≤ 9)) ∧
    ((∃ i, decode w = .ok i ∧ i.opcode = op) ↔ (w &&& 0xF000000F#32 = BitVec.ofNat 32 op.val ∧ op.val ≤ 9))) ∧
  (∀ (w : Word) (s : State), s.lat = none → (w.toNat / 2 ^ 28 ≠ 0 ∨ 0xA ≤ w.toNat % 16) →
    completed s w = .next (afterErr s w .illegal))

/-- R75: two words that agree on OP, RSV and the fields the opcode uses decode alike, and the command's result does not depend on the
other fields; the assembler writes 0 there. -/
def Obligations.UnusedFieldsAreIgnored : Prop :=
  (∀ (w w' : Word) (i : Instr) (s : State), decode w = .ok i → w &&& i.usedMask = w' &&& i.usedMask →
    decode w' = .ok i ∧
    ∃ t, exec i (s.accept w) = .next t ∧ exec i (s.accept w') = .next { t with cmd := w' }) ∧
  (∀ i : Instr, encode i &&& ~~~ i.usedMask = 0#32)

/-- R73, R81, R82: each mnemonic of the opcode map builds its command, the operands in the order destination, then A, B, N, X, Y; each
pseudo-instruction expands to exactly one command, that of the table; a mnemonic takes exactly the number of operands of its syntax
column, and any other count is an error. -/
def Obligations.MnemonicsBuildTheTabledCommands : Prop :=
  (∀ d a b n x y : Reg,
    Mnemonic.nop.build [] = some .nop ∧
    Mnemonic.modred.build [d, a, n] = some (.modred d a n) ∧
    Mnemonic.modsub.build [d, a, b, n] = some (.modsub d a b n) ∧
    Mnemonic.modmul.build [d, a, b, n] = some (.modmul d a b n) ∧
    Mnemonic.montmul.build [d, a, b, n] = some (.montmul d a b n) ∧
    Mnemonic.tomont.build [d, a, n] = some (.tomont d a n) ∧
    Mnemonic.frommont.build [d, a, n] = some (.frommont d a n) ∧
    Mnemonic.modexp.build [d, a, b, n] = some (.modexp d a b n) ∧
    Mnemonic.crtcomb.build [d, a, b, n, x, y] = some (.crtcomb d a b n x y) ∧
    Mnemonic.crtexp.build [d, a, b, n, x] = some (.crtexp d a b n x)) ∧
  (∀ r1 r2 r3 r4 r5 : Reg,
    Mnemonic.modsqr.build [r1, r2, r3] = some (.modmul r1 r2 r2 r3) ∧
    Mnemonic.montsqr.build [r1, r2, r3] = some (.montmul r1 r2 r2 r3) ∧
    Mnemonic.encrypt.build [r1, r2, r3, r4] = some (.modexp r1 r2 r3 r4) ∧
    Mnemonic.decrypt.build [r1, r2, r3, r4] = some (.modexp r1 r2 r3 r4) ∧
    Mnemonic.decryptcrt.build [r1, r2, r3, r4, r5] = some (.crtexp r1 r2 r3 r4 r5) ∧
    Mnemonic.sign.build [r1, r2, r3, r4] = some (.modexp r1 r2 r3 r4) ∧
    Mnemonic.signcrt.build [r1, r2, r3, r4, r5] = some (.crtexp r1 r2 r3 r4 r5) ∧
    Mnemonic.fermat.build [r1, r2, r3] = some (.modexp r1 r2 r3 r3)) ∧
  (∀ (m : Mnemonic) (rs : List Reg), (m.build rs).isSome = true ↔ rs.length = m.arity)

/-! ### The commands: each result, each error, and the whole frame, as one equation between states -/

/-- R100: NOP completes with OK, writes no register and changes only CMD, BUSY, ERR, ERRCODE and DONE, for every word with OP = 0 and
RSV = 0; with RSV not 0 the word is no NOP. -/
def Obligations.NopOnlyCompletes : Prop :=
  (∀ (s : State) (w : Word), s.lat = none → w &&& 0xF000000F#32 = 0x00000000#32 →
    decode w = .ok .nop ∧ exec .nop (s.accept w) = .next (afterOkNone s w)) ∧
  (∀ w : Word, fieldRSV w ≠ 0 → decode w ≠ .ok .nop)

/-- R110: MODRED writes A mod N, or reports ZMOD when N = 0. -/
def Obligations.ModredWritesTheRemainder : Prop :=
  ∀ (s : State) (w : Word) (d a n : Reg), s.lat = none → w &&& 0xF000000F#32 = 0x00000001#32 →
    d = fieldRD w → a = fieldRA w → n = fieldRN w →
    decode w = .ok (.modred d a n) ∧
    (s.x n ≠ 0 → exec (.modred d a n) (s.accept w) = .next (afterOk s w d (s.x a % s.x n))) ∧
    (s.x n = 0 → exec (.modred d a n) (s.accept w) = .next (afterErr s w .zmod))

/-- R112, R113: MODSUB writes the one value in [0, N) that N divides A - B less, over the integers, or reports ZMOD when N = 0. -/
def Obligations.ModsubWritesTheNormalisedDifference : Prop :=
  ∀ (s : State) (w : Word) (d a b n : Reg), s.lat = none → w &&& 0xF000000F#32 = 0x00000002#32 →
    d = fieldRD w → a = fieldRA w → b = fieldRB w → n = fieldRN w →
    decode w = .ok (.modsub d a b n) ∧
    (s.x n ≠ 0 → ∃ v : Nat, exec (.modsub d a b n) (s.accept w) = .next (afterOk s w d v) ∧
      v < s.x n ∧ (s.x n : Int) ∣ ((s.x a : Int) - (s.x b : Int)) - v) ∧
    (s.x n = 0 → exec (.modsub d a b n) (s.accept w) = .next (afterErr s w .zmod))

/-- R114: MODMUL writes A * B mod N, the product exact, N even or odd, or reports ZMOD when N = 0. -/
def Obligations.ModmulWritesTheProductRemainder : Prop :=
  ∀ (s : State) (w : Word) (d a b n : Reg), s.lat = none → w &&& 0xF000000F#32 = 0x00000003#32 →
    d = fieldRD w → a = fieldRA w → b = fieldRB w → n = fieldRN w →
    decode w = .ok (.modmul d a b n) ∧
    (s.x n ≠ 0 → exec (.modmul d a b n) (s.accept w) = .next (afterOk s w d (s.x a * s.x b % s.x n))) ∧
    (s.x n = 0 → exec (.modmul d a b n) (s.accept w) = .next (afterErr s w .zmod))

/-- R121, R16: for odd N, MONTMUL writes A * B * Rinv mod N, where Rinv is the inverse of 2^W modulo N; it reports ZMOD when N = 0,
then EVENMOD when N is even. -/
def Obligations.MontmulWritesTheMontgomeryProduct : Prop :=
  ∀ (s : State) (w : Word) (d a b n : Reg), s.lat = none → w &&& 0xF000000F#32 = 0x00000004#32 →
    d = fieldRD w → a = fieldRA w → b = fieldRB w → n = fieldRN w →
    decode w = .ok (.montmul d a b n) ∧
    (s.x n % 2 = 1 → ∃ rinv, isInverse rinv (2 ^ s.cfg.width) (s.x n) ∧
      exec (.montmul d a b n) (s.accept w) = .next (afterOk s w d (s.x a * s.x b * rinv % s.x n))) ∧
    (s.x n = 0 → exec (.montmul d a b n) (s.accept w) = .next (afterErr s w .zmod)) ∧
    (s.x n ≠ 0 → s.x n % 2 = 0 → exec (.montmul d a b n) (s.accept w) = .next (afterErr s w .evenmod))

/-- R123: for odd N, TOMONT writes A * 2^W mod N; it reports ZMOD when N = 0, then EVENMOD when N is even. -/
def Obligations.TomontWritesTheMontgomeryForm : Prop :=
  ∀ (s : State) (w : Word) (d a n : Reg), s.lat = none → w &&& 0xF000000F#32 = 0x00000005#32 →
    d = fieldRD w → a = fieldRA w → n = fieldRN w →
    decode w = .ok (.tomont d a n) ∧
    (s.x n % 2 = 1 → exec (.tomont d a n) (s.accept w) = .next (afterOk s w d (s.x a * 2 ^ s.cfg.width % s.x n))) ∧
    (s.x n = 0 → exec (.tomont d a n) (s.accept w) = .next (afterErr s w .zmod)) ∧
    (s.x n ≠ 0 → s.x n % 2 = 0 → exec (.tomont d a n) (s.accept w) = .next (afterErr s w .evenmod))

/-- R125: for odd N, FROMMONT writes A * Rinv mod N, where Rinv is the inverse of 2^W modulo N; it reports ZMOD when N = 0, then
EVENMOD when N is even. -/
def Obligations.FrommontWritesTheValueOfTheForm : Prop :=
  ∀ (s : State) (w : Word) (d a n : Reg), s.lat = none → w &&& 0xF000000F#32 = 0x00000006#32 →
    d = fieldRD w → a = fieldRA w → n = fieldRN w →
    decode w = .ok (.frommont d a n) ∧
    (s.x n % 2 = 1 → ∃ rinv, isInverse rinv (2 ^ s.cfg.width) (s.x n) ∧
      exec (.frommont d a n) (s.accept w) = .next (afterOk s w d (s.x a * rinv % s.x n))) ∧
    (s.x n = 0 → exec (.frommont d a n) (s.accept w) = .next (afterErr s w .zmod)) ∧
    (s.x n ≠ 0 → s.x n % 2 = 0 → exec (.frommont d a n) (s.accept w) = .next (afterErr s w .evenmod))

/-- R130, R15: MODEXP writes the exact power A^B reduced mod N, N even or odd, 0^0 being 1, or reports ZMOD when N = 0. -/
def Obligations.ModexpWritesTheExactPower : Prop :=
  ∀ (s : State) (w : Word) (d a b n : Reg), s.lat = none → w &&& 0xF000000F#32 = 0x00000007#32 →
    d = fieldRD w → a = fieldRA w → b = fieldRB w → n = fieldRN w →
    decode w = .ok (.modexp d a b n) ∧
    (s.x n ≠ 0 → exec (.modexp d a b n) (s.accept w) = .next (afterOk s w d (s.x a ^ s.x b % s.x n))) ∧
    (s.x n = 0 → exec (.modexp d a b n) (s.accept w) = .next (afterErr s w .zmod))

/-- R142, R143: CRTCOMB writes the exact m = cQ + (((cP - cQ) * qInv) mod p) * q, its inputs used as given; it reports ZMOD when
p = 0, then OVF when m does not fit in W bits. -/
def Obligations.CrtcombWritesTheRecombination : Prop :=
  ∀ (s : State) (w : Word) (d a b n x y : Reg), s.lat = none → w &&& 0xF000000F#32 = 0x00000008#32 →
    d = fieldRD w → a = fieldRA w → b = fieldRB w → n = fieldRN w → x = fieldRX w → y = fieldRY w →
    decode w = .ok (.crtcomb d a b n x y) ∧
    (s.x n = 0 → exec (.crtcomb d a b n x y) (s.accept w) = .next (afterErr s w .zmod)) ∧
    (s.x n ≠ 0 → ∃ m : Nat, (m : Int) = recombined (s.x a) (s.x b) (s.x n) (s.x x) (s.x y) ∧
      (m < 2 ^ s.cfg.width → exec (.crtcomb d a b n x y) (s.accept w) = .next (afterOk s w d m)) ∧
      (2 ^ s.cfg.width ≤ m → exec (.crtcomb d a b n x y) (s.accept w) = .next (afterErr s w .ovf)))

/-- R146, R147, R148: CRTEXP computes the five steps of decryptCRT; it reports ZMOD when p <= 1 or q <= 1, then NOINV when q and p are
not coprime, then OVF when m does not fit in W bits. -/
def Obligations.CrtexpComputesTheFiveSteps : Prop :=
  ∀ (s : State) (w : Word) (d a b n x : Reg), s.lat = none → w &&& 0xF000000F#32 = 0x00000009#32 →
    d = fieldRD w → a = fieldRA w → b = fieldRB w → n = fieldRN w → x = fieldRX w →
    decode w = .ok (.crtexp d a b n x) ∧
    (s.x n ≤ 1 ∨ s.x x ≤ 1 → exec (.crtexp d a b n x) (s.accept w) = .next (afterErr s w .zmod)) ∧
    (1 < s.x n → 1 < s.x x → Nat.gcd (s.x x) (s.x n) ≠ 1 →
      exec (.crtexp d a b n x) (s.accept w) = .next (afterErr s w .noinv)) ∧
    (1 < s.x n → 1 < s.x x → Nat.gcd (s.x x) (s.x n) = 1 →
      ∃ qInv m : Nat, isInverse qInv (s.x x) (s.x n) ∧
        (m : Int) = recombined (s.x a ^ (s.x b % (s.x n - 1)) % s.x n) (s.x a ^ (s.x b % (s.x x - 1)) % s.x x)
          (s.x n) (s.x x) qInv ∧
        (m < 2 ^ s.cfg.width → exec (.crtexp d a b n x) (s.accept w) = .next (afterOk s w d m)) ∧
        (2 ^ s.cfg.width ≤ m → exec (.crtexp d a b n x) (s.accept w) = .next (afterErr s w .ovf)))

/-! ### Completion and errors, for every command -/

/-- R166, R161: the engine's turn with a command in flight is one completion: some outcome, ILLEGAL for a word that does not decode,
writes the destination on OK(v) only, and sets ERRCODE, ERR, BUSY and DONE; OVR, IRQEN, CMD and everything else are unchanged. -/
def Obligations.EngineTurnIsOneCompletion : Prop :=
  ∀ (s : State) (l : Latch), s.lat = some l →
    ∃ out : CmdResult,
      (∀ e, decode l.word = .error e → out = .err .illegal) ∧
      engineStep s = .next (match out with
        | .ok v => { s with
            regs := s.regs.set l.d v, written := s.written.set l.d true, lat := none
            errcode := none, err := false, done := true }
        | .okNone => { s with lat := none, errcode := none, err := false, done := true }
        | .err e => { s with lat := none, errcode := some e, err := true, done := true })

/-- R101, R166: `exec` of every command, in every state with a command in flight, answers a next state, in which the command is no
longer in flight and DONE is set; with none in flight it changes nothing (that last clause is the model's reading of R18, log 7). -/
def Obligations.EveryCommandCompletes : Prop :=
  ∀ (i : Instr) (s : State), ∃ t, exec i s = .next t ∧ t.busy = false ∧
    (s.busy = true → t.done = true ∧ t.err = t.errcode.isSome) ∧ (s.busy = false → t = s)

/-- R101: the outcome depends only on the latched operands and on W, not on the destination index, on the registers, or on the history
of earlier commands. -/
def Obligations.OutcomeDependsOnLatchedOperandsOnly : Prop :=
  ∀ (i : Instr) (s s' : State) (l l' : Latch), s.lat = some l → s'.lat = some l' → s.cfg.width = s'.cfg.width →
    l.a = l'.a → l.b = l'.b → l.n = l'.n → l.x = l'.x → l.y = l'.y →
    ∃ out : CmdResult, exec i s = .next (s.complete l out) ∧ exec i s' = .next (s'.complete l' out)

/-- R73, R76 (e): an accepted command reads no register but its sources: two states that agree on those give the same outcome, whatever
the other registers hold. -/
def Obligations.CommandReadsOnlyItsSources : Prop :=
  ∀ (i : Instr) (w : Word) (s s' : State), decode w = .ok i → s.cfg.width = s'.cfg.width →
    (∀ r ∈ i.sources, s.x r = s'.x r) →
    ∃ out : CmdResult,
      exec i (s.accept w) = .next ((s.accept w).complete (latched s w) out) ∧
      exec i (s'.accept w) = .next ((s'.accept w).complete (latched s' w) out)

/-- The frame of every command (R20, R101, R166): a completion changes no operand register but the one the latch names as destination,
and it changes neither CMD, OVR, IRQEN nor the configuration; NOP changes no operand register at all. -/
def Obligations.CompletionFrame : Prop :=
  ∀ (i : Instr) (s t : State) (l : Latch), s.lat = some l → exec i s = .next t →
    (∀ r : Reg, r ≠ l.d → t.x r = s.x r ∧ t.isWritten r = s.isWritten r) ∧
    (i = .nop → t.regs = s.regs) ∧
    t.cmd = s.cmd ∧ t.ovr = s.ovr ∧ t.doneie = s.doneie ∧ t.cfg = s.cfg ∧
    t.agenda = s.agenda ∧ t.hostLog = s.hostLog ∧ t.draws = s.draws

/-- R168: errors are precise: a command that ends with an error has written no operand register, and it shows in ERR and DONE. -/
def Obligations.FailedCommandsWriteNoRegister : Prop :=
  ∀ (s t : State) (l : Latch), s.lat = some l → engineStep s = .next t → t.errcode ≠ none →
    t.regs = s.regs ∧ t.written = s.written ∧ t.err = true ∧ t.done = true

/-- R162: ZMOD is reported exactly when the latched N is 0, by MODRED, MODSUB, MODMUL, MODEXP, MONTMUL, TOMONT, FROMMONT and CRTCOMB
(there N is p), and by CRTEXP when p <= 1 or q <= 1; never by NOP. -/
def Obligations.ZmodExactlyForItsCauses : Prop :=
  ∀ (i : Instr) (s t : State) (l : Latch), s.lat = some l → exec i s = .next t →
    (t.errcode = some .zmod ↔
      match i with
      | .nop => False
      | .modred .. | .modsub .. | .modmul .. | .modexp .. => l.n = 0
      | .montmul .. | .tomont .. | .frommont .. => l.n = 0
      | .crtcomb .. => l.n = 0
      | .crtexp .. => l.n ≤ 1 ∨ l.x ≤ 1)

/-- R165: EVENMOD is reported exactly by MONTMUL, TOMONT and FROMMONT with N even and not 0. -/
def Obligations.EvenmodExactlyForEvenMontgomeryModuli : Prop :=
  ∀ (i : Instr) (s t : State) (l : Latch), s.lat = some l → exec i s = .next t →
    (t.errcode = some .evenmod ↔
      match i with
      | .montmul .. | .tomont .. | .frommont .. => l.n ≠ 0 ∧ l.n % 2 = 0
      | _ => False)

/-- R164: NOINV is reported exactly by CRTEXP with p, q >= 2 and gcd(q, p) not 1. -/
def Obligations.NoinvExactlyForCommonFactors : Prop :=
  ∀ (i : Instr) (s t : State) (l : Latch), s.lat = some l → exec i s = .next t →
    (t.errcode = some .noinv ↔ (∃ d a b n x, i = .crtexp d a b n x) ∧ 2 ≤ l.n ∧ 2 ≤ l.x ∧ Nat.gcd l.x l.n ≠ 1)

/-- R167: OVF is reported exactly by CRTCOMB and CRTEXP, past their other checks, when the exact recombined value is 2^W or more. -/
def Obligations.OvfExactlyForTooWideCrtValues : Prop :=
  ∀ (i : Instr) (s t : State) (l : Latch), s.lat = some l → exec i s = .next t →
    (t.errcode = some .ovf ↔
      (∃ d a b n x y, i = .crtcomb d a b n x y) ∧ l.n ≠ 0 ∧
          (2 : Int) ^ s.cfg.width ≤ recombined l.a l.b l.n l.x l.y ∨
      (∃ d a b n x, i = .crtexp d a b n x) ∧ 2 ≤ l.n ∧ 2 ≤ l.x ∧
          ∃ qInv, isInverse qInv l.x l.n ∧
            (2 : Int) ^ s.cfg.width ≤
              recombined (l.a ^ (l.b % (l.n - 1)) % l.n) (l.a ^ (l.b % (l.x - 1)) % l.x) l.n l.x qInv)

/-- R101, R115: every value a command writes is in [0, 2^W) when the latched modulus is; for the modular, Montgomery and exponentiation
commands it is in [0, N). -/
def Obligations.ResultsFitTheirRange : Prop :=
  ∀ (i : Instr) (s t : State) (l : Latch), s.lat = some l → l.n < 2 ^ s.cfg.width → exec i s = .next t → t.errcode = none →
    i ≠ .nop →
    t.x l.d < 2 ^ s.cfg.width ∧
    match i with
    | .nop | .crtcomb .. | .crtexp .. => True
    | .modred .. | .modsub .. | .modmul .. | .montmul .. | .tomont .. | .frommont .. | .modexp .. => t.x l.d < l.n

/-! ### The step -/

/-- R18, R78, R166: when the engine has its turn and the word in flight decodes to i, the step is exec of i, on the state with that turn
taken off the agenda (the agenda is the model's own, log 6). -/
def Obligations.StepRunsTheDecodedCommand : Prop :=
  ∀ (s : State) (rest : List Event) (l : Latch) (i : Instr), engineNext s rest → s.lat = some l → decode l.word = .ok i →
    step s = exec i { s with agenda := rest }

/-- The placing of one command (log 8): the step after it runs exactly the command the decoder reads from the word, on the state with the
word accepted. -/
def Obligations.PlacedCommandIsRunNext : Prop :=
  ∀ (s : State) (nbits w : Nat) (i : Instr), decodeTableWord nbits w = some i →
    step (s.withFetchWord nbits w) = exec i (s.accept (BitVec.ofNat 32 (w % 2 ^ nbits)))

/-- R51: the port answers ERROR with data 0 exactly to an access that is not 4 bytes, not aligned or outside the block, and exactly
that stops the machine, as a fault of the host (log 9, log 13); no step is ever refused. -/
def Obligations.OnlyUndefinedAccessesStopTheMachine : Prop :=
  (∀ (s : State) (a : Access),
    s.respond a = .error 0x00000000#32 ↔
      ¬ (a.bytes = 4 ∧ a.addr % 4 = 0 ∧ s.cfg.base ≤ a.addr ∧ a.addr < s.cfg.base + 0x4000)) ∧
  (∀ (s : State) (f : Fault), step s = .fault f ↔
    ∃ a rest, s.agenda = .host a :: rest ∧ f = .busError a ∧
      ¬ (a.bytes = 4 ∧ a.addr % 4 = 0 ∧ s.cfg.base ≤ a.addr ∧ a.addr < s.cfg.base + 0x4000)) ∧
  (∀ (s : State) (r : Refusal), step s ≠ .refused r)

/-- The invariant of every run (R20, R25, R26, R28, R36) is kept by every step, from every state that has it: registers are W bits wide,
the latch holds what acceptance would read now, CMD is the word in flight, ERR says whether ERRCODE is 0, and no error shows while
a command is in flight. No step changes W or BASE (opening of 10_state.md). -/
def Obligations.EveryStepKeepsTheInvariant : Prop :=
  ∀ s t : State, s.Inv → step s = .next t → t.Inv ∧ t.cfg = s.cfg

/-- The invariant holds right after reset, for every instance of the block (its clause on the operand registers rests on the values of
log 2). -/
def Obligations.ResetHasTheInvariant : Prop :=
  (∀ c : Config, (State.resetOf c).Inv) ∧ State.reset.Inv

/-! ### Whole-machine rules: who may change what -/

/-- R20: an operand register changes only by a host write to its window while idle, by a completion other than NOP that names it as RD
and ends with OK, or by a hardware reset (that an empty agenda gives the engine its turn is the model's choice, log 6). -/
def Obligations.RegistersChangeOnlyByTheseEvents : Prop :=
  ∀ (s t : State) (r : Reg), step s = .next t → t.x r ≠ s.x r →
    (∃ k v rest, nextWrites s (0x1000 + 0x200 * r.val + 4 * k) v rest ∧ k < s.cfg.nw ∧ s.busy = false) ∨
    (∃ l i rest, engineNext s rest ∧ s.lat = some l ∧ l.d = r ∧ decode l.word = .ok i ∧ i ≠ .nop ∧ t.errcode = none) ∨
    (∃ rest, s.agenda = .hardReset :: rest)

/-- R20, U1: a register is marked written from its first write (a host write to its window while idle, or a completion that names it
other than NOP and ends with OK), whatever the value written, until a hardware reset, and by nothing else; a register whose value changed
otherwise than by a hardware reset is so marked. That the first write may be of one word only is the model's reading (log 3), and that an
empty agenda gives the engine its turn is its choice (log 6). -/
def Obligations.WrittenMarksFollowTheWrites : Prop :=
  ∀ (s t : State) (r : Reg), step s = .next t → (∀ rest, s.agenda ≠ .hardReset :: rest) →
    (s.isWritten r = true → t.isWritten r = true) ∧
    (∀ k v rest, nextWrites s (0x1000 + 0x200 * r.val + 4 * k) v rest → k < s.cfg.nw → s.busy = false → t.isWritten r = true) ∧
    (∀ l i rest, engineNext s rest → s.lat = some l → l.d = r → decode l.word = .ok i → i ≠ .nop → t.errcode = none →
      t.isWritten r = true) ∧
    (t.x r ≠ s.x r → t.isWritten r = true) ∧
    (s.isWritten r = false → t.isWritten r = true →
      (∃ k v rest, nextWrites s (0x1000 + 0x200 * r.val + 4 * k) v rest ∧ k < s.cfg.nw ∧ s.busy = false) ∨
      (∃ l i rest, engineNext s rest ∧ s.lat = some l ∧ l.d = r ∧ decode l.word = .ok i ∧ i ≠ .nop ∧ t.errcode = none))

/-- R27: BUSY is set by acceptance and cleared by completion, by a soft reset and by a hardware reset; nothing else writes it. The row of
the empty agenda, which has the engine complete the command in flight, is the model's choice (log 6). -/
def Obligations.BusyFollowsAcceptanceAndCompletion : Prop :=
  ∀ s t : State, step s = .next t →
    t.busy = match s.agenda with
      | [] => false
      | .engine :: _ => false
      | .hardReset :: _ => false
      | .host (.read ..) :: _ => s.busy
      | .host (.write addr _ v) :: _ =>
        if addr = s.cfg.base + 0x008 then true
        else if addr = s.cfg.base + 0x018 ∧ v.getLsbD 0 = true then false
        else s.busy

/-- R29: OVR is set by a CMD or operand-window write while busy, cleared by CTRL.CLROVR, a soft reset or a hardware reset, and kept by
everything else. -/
def Obligations.OvrIsTheStickyRecordOfDroppedWrites : Prop :=
  ∀ s t : State, step s = .next t →
    t.ovr = match s.agenda with
      | [] => s.ovr
      | .engine :: _ => s.ovr
      | .hardReset :: _ => false
      | .host (.read ..) :: _ => s.ovr
      | .host (.write addr _ v) :: _ =>
        if addr = s.cfg.base + 0x018 ∧ (v.getLsbD 0 = true ∨ v.getLsbD 1 = true) then false
        else if s.busy = true ∧ (addr = s.cfg.base + 0x008 ∨
            (s.cfg.base + 0x1000 ≤ addr ∧ addr < s.cfg.base + 0x3000)) then true
        else s.ovr

/-- R31, R171, R34, R170: DONE is set by every completion and by nothing else, and cleared by writing 1 to bit 0 of IRQSTAT, by a soft
reset and by a hardware reset; DONEIE is written through IRQEN and cleared by the resets; irq is the AND of the two. The row of the empty
agenda, which has the engine complete the command in flight, is the model's choice (log 6). -/
def Obligations.InterruptBitsFollowTheirRules : Prop :=
  ∀ s t : State, step s = .next t →
    (t.done = match s.agenda with
      | [] => s.done || s.busy
      | .engine :: _ => s.done || s.busy
      | .hardReset :: _ => false
      | .host (.read ..) :: _ => s.done
      | .host (.write addr _ v) :: _ =>
        if (addr = s.cfg.base + 0x014 ∨ addr = s.cfg.base + 0x018) ∧ v.getLsbD 0 = true then false else s.done) ∧
    (t.doneie = match s.agenda with
      | [] => s.doneie
      | .engine :: _ => s.doneie
      | .hardReset :: _ => false
      | .host (.read ..) :: _ => s.doneie
      | .host (.write addr _ v) :: _ =>
        if addr = s.cfg.base + 0x010 then v.getLsbD 0
        else if addr = s.cfg.base + 0x018 ∧ v.getLsbD 0 = true then false
        else s.doneie) ∧
    t.irq = (t.done && t.doneie)

/-- R28: ERR and ERRCODE are cleared by acceptance and by the resets, set by a completion, and kept by every other step. The row of the
empty agenda, which has the engine complete the command in flight, is the model's choice (log 6). -/
def Obligations.ErrcodeIsOverwrittenOnlyByTheseEvents : Prop :=
  ∀ s t : State, step s = .next t →
    match s.agenda with
    | [] => if s.busy = true then t.err = t.errcode.isSome else (t.errcode = s.errcode ∧ t.err = s.err)
    | .engine :: _ => if s.busy = true then t.err = t.errcode.isSome else (t.errcode = s.errcode ∧ t.err = s.err)
    | .hardReset :: _ => t.errcode = none ∧ t.err = false
    | .host (.read ..) :: _ => t.errcode = s.errcode ∧ t.err = s.err
    | .host (.write addr _ v) :: _ =>
      if (addr = s.cfg.base + 0x008 ∧ s.busy = false) ∨ (addr = s.cfg.base + 0x018 ∧ v.getLsbD 0 = true) then
        t.errcode = none ∧ t.err = false
      else t.errcode = s.errcode ∧ t.err = s.err

/-- R60: a defined read anywhere in the block changes nothing in the block: the step adds its answer to the model's own log. The model's
own counter of draws advances by 1 exactly when the read is of the operand window while a command is in flight (the model's choice,
log 5). -/
def Obligations.ReadsHaveNoSideEffects : Prop :=
  ∀ (s : State) (off : Nat) (rest : List Event), nextReads s off rest → off < 0x4000 → off % 4 = 0 →
    ∃ data : Word, step s = .next { s with
      agenda := rest, hostLog := .okayRead data :: s.hostLog
      draws := if s.busy = true ∧ 0x1000 ≤ off ∧ off < 0x3000 then s.draws + 1 else s.draws }

/-! ### The bus -/

/-- R25, R36: a CMD write while idle accepts any word, in one step: it latches the word, RD and the values of the five source fields,
sets BUSY, and clears ERR and ERRCODE; while busy it is ignored and sets OVR; a CMD read returns the register. -/
def Obligations.CmdWritesAcceptOrOverrun : Prop :=
  ∀ (s : State) (w : Word) (rest : List Event),
    (nextWrites s 0x008 w rest → s.busy = false →
      step s = .next { s with
        agenda := rest, hostLog := .okayWrite :: s.hostLog, lat := some (latched s w), cmd := w, err := false, errcode := none }) ∧
    (nextWrites s 0x008 w rest → s.busy = true →
      step s = .next { s with agenda := rest, hostLog := .okayWrite :: s.hostLog, ovr := true }) ∧
    (nextReads s 0x008 rest →
      step s = .next { s with agenda := rest, hostLog := .okayRead s.cmd :: s.hostLog })

/-- R53, R54, R56: a read of word k of register r returns bits [32k+31 : 32k] of x[r], 0 beyond the register's width, and a free draw
while a command is in flight. That the draw is `Config.freeWord` at the model's counter of draws, which the read then advances by 1, is the
model's choice (log 5). -/
def Obligations.OperandReadsReturnTheWord : Prop :=
  ∀ (s : State) (r : Reg) (k : Nat) (rest : List Event), k < 128 → nextReads s (0x1000 + 0x200 * r.val + 4 * k) rest →
    (s.busy = false → k < s.cfg.nw →
      step s = .next { s with
        agenda := rest, hostLog := .okayRead (BitVec.ofNat 32 (s.x r / 2 ^ (32 * k))) :: s.hostLog }) ∧
    (s.busy = false → s.cfg.nw ≤ k →
      step s = .next { s with agenda := rest, hostLog := .okayRead 0x00000000#32 :: s.hostLog }) ∧
    (s.busy = true →
      step s = .next { s with
        agenda := rest, hostLog := .okayRead (Config.freeWord s.draws) :: s.hostLog, draws := s.draws + 1 })

/-- R53, R54, R55: a write of word k of register r replaces those 32 bits and no others; beyond the register's width it is ignored; while
a command is in flight it is dropped and sets OVR. That the write of one word already marks the register written is the model's reading
of U1 (log 3). -/
def Obligations.OperandWritesReplaceOneWord : Prop :=
  ∀ (s : State) (r : Reg) (k : Nat) (data : Word) (rest : List Event), k < 128 →
    nextWrites s (0x1000 + 0x200 * r.val + 4 * k) data rest →
    (s.busy = false → k < s.cfg.nw → ∃ v : Nat,
      step s = .next { s with
        agenda := rest, hostLog := .okayWrite :: s.hostLog
        regs := s.regs.set r v, written := s.written.set r true } ∧
      ∀ j : Nat, v.testBit j = if 32 * k ≤ j ∧ j < 32 * k + 32 then data.getLsbD (j - 32 * k) else (s.x r).testBit j) ∧
    (s.busy = false → s.cfg.nw ≤ k →
      step s = .next { s with agenda := rest, hostLog := .okayWrite :: s.hostLog }) ∧
    (s.busy = true →
      step s = .next { s with agenda := rest, hostLog := .okayWrite :: s.hostLog, ovr := true })

/-- R57: byte b of word k of a register is byte 4k + b of its little-endian byte string. -/
def Obligations.WordsAreLittleEndianBytes : Prop :=
  ∀ (v k b : Nat), b < 4 →
    operandByte v (4 * k + b) = (operandWord v k).extractLsb' (8 * b) 8

/-- R23, R24, R26, R30, R31, R32, R33, R52: ID reads 0x4D435254, PARAM reads NW, NREG and VERSION, CMD the register, STATUS its
flags and code, IRQEN and IRQSTAT their one bit, CTRL and every reserved word 0; the read changes nothing else. -/
def Obligations.ControlReadsReturnTheRegisters : Prop :=
  ∀ (s : State) (off : Nat) (rest : List Event), nextReads s off rest → off % 4 = 0 →
    (off < 0x1000 ∨ (0x3000 ≤ off ∧ off < 0x4000)) →
    ∃ data : Word, step s = .next { s with agenda := rest, hostLog := .okayRead data :: s.hostLog } ∧
      data.toNat =
        if off = 0x000 then 0x4D435254
        else if off = 0x004 then s.cfg.width / 32 + 0x10 * 2 ^ 16 + 0x01 * 2 ^ 24
        else if off = 0x008 then s.cmd.toNat
        else if off = 0x00C then bit s.busy + 2 * bit s.err + 4 * bit s.ovr + 2 ^ 8 * codeOf s.errcode
        else if off = 0x010 then bit s.doneie
        else if off = 0x014 then bit s.done
        else 0

/-- R30, R31, R32, R22: busy or not, a write to IRQEN sets DONEIE to its bit 0, a write to IRQSTAT clears DONE if its bit 0 is 1, and a
write to CTRL with SRST = 0 clears OVR if its bit 1 is 1; nothing else of the block changes. -/
def Obligations.ControlWritesDoTheirEffect : Prop :=
  ∀ (s : State) (v : Word) (rest : List Event),
    (nextWrites s 0x010 v rest →
      step s = .next { s with agenda := rest, hostLog := .okayWrite :: s.hostLog, doneie := v.getLsbD 0 }) ∧
    (nextWrites s 0x014 v rest →
      step s = .next { s with agenda := rest, hostLog := .okayWrite :: s.hostLog, done := s.done && !v.getLsbD 0 }) ∧
    (nextWrites s 0x018 v rest → v.getLsbD 0 = false →
      step s = .next { s with agenda := rest, hostLog := .okayWrite :: s.hostLog, ovr := s.ovr && !v.getLsbD 1 })

/-- R22, R33, R52: writes to ID, PARAM, STATUS and the reserved words are ignored: no state of the block changes and OVR is not set. -/
def Obligations.ReadOnlyAndReservedWritesAreIgnored : Prop :=
  ∀ (s : State) (off : Nat) (v : Word) (rest : List Event), nextWrites s off v rest → off % 4 = 0 →
    (off = 0x000 ∨ off = 0x004 ∨ off = 0x00C ∨ (0x01C ≤ off ∧ off < 0x1000) ∨ (0x3000 ≤ off ∧ off < 0x4000)) →
    step s = .next { s with agenda := rest, hostLog := .okayWrite :: s.hostLog }

/-! ### Reset -/

/-- R39, R180: the control registers after reset, as a host reads them, and the operand registers unwritten. -/
def Obligations.ResetLeavesTheListedValues : Prop :=
  ∀ c : Config, ∃ s : State, s = State.resetOf c ∧
    s.readData .id = 0x4D435254#32 ∧ (s.readData .param).toNat = c.nw + 0x10 * 2 ^ 16 + 0x01 * 2 ^ 24 ∧
    s.readData .cmd = 0x00000000#32 ∧ s.readData .status = 0x00000000#32 ∧ s.readData .irqen = 0x00000000#32 ∧
    s.readData .irqstat = 0x00000000#32 ∧ s.irq = false ∧ s.lat = none ∧ ∀ r : Reg, s.isWritten r = false

/-- R180: asserting the reset input in any state puts every control register into its reset value, discards the command in flight
without DONE, and leaves each operand register unwritten, with some value of W bits (which one is not said: it is a free value,
log 4). -/
def Obligations.HardwareResetRestoresTheControlRegisters : Prop :=
  ∀ (s : State) (rest : List Event), s.agenda = .hardReset :: rest →
    ∃ regs : Vector Nat 16, (∀ r : Reg, regs[r] < 2 ^ s.cfg.width) ∧
      step s = .next { State.resetOf s.cfg with
        regs := regs, agenda := rest, hostLog := s.hostLog, draws := s.draws + 16 }

/-- R181, R182: a CTRL write with SRST = 1, with CLROVR or without, busy or not, discards the command in flight, puts STATUS, IRQEN,
IRQSTAT and CMD to 0, and leaves the operand registers unchanged. -/
def Obligations.SoftResetKeepsTheOperandRegisters : Prop :=
  ∀ (s : State) (v : Word) (rest : List Event), nextWrites s 0x018 v rest → v.getLsbD 0 = true →
    step s = .next { s with
      agenda := rest, hostLog := .okayWrite :: s.hostLog, lat := none, err := false, ovr := false, errcode := none
      doneie := false, done := false, cmd := 0x00000000#32 }

/-! ### Runs -/

/-- R196, R18, R160: a command in flight ends: whatever the agenda (the model's own form of weak fairness, log 6), as long as its accesses
are defined, after at most one step more than the agenda is long a state with no command in flight is reached. -/
def Obligations.CommandsInFlightEnd : Prop :=
  ∀ s : State, s.busy = true → (∀ a, .host a ∈ s.agenda → a.defined s.cfg = true) →
    ∃ k, k ≤ s.agenda.length + 1 ∧ ∃ t, Sys2Proof.core.run k s = .next t ∧ t.busy = false

/-- R83, R160, R63: issuing any command in an idle state and waiting, with any number of polls before the completion, ends in the state
its completion gives; the host reads BUSY = 1 in each of those polls, and the last poll reads the completion's STATUS (that a WAIT names
its number of polls is the model's choice, log 19). -/
def Obligations.IssueAndWaitDeliversTheResult : Prop :=
  ∀ (s : State) (i : Instr) (polls : Nat) (rest : List Event), s.busy = false →
    s.agenda = programEvents s.cfg [.cmd i, .wait polls] ++ rest →
    ∃ t, exec i ({ s with agenda := rest }.accept (encode i)) = .next t ∧
      Sys2Proof.core.run (polls + 3) s = .next { t with
        hostLog := .okayRead t.statusWord ::
          (List.replicate polls (.okayRead (BitVec.ofNat 32 (1 + 4 * bit s.ovr))) ++ .okayWrite :: s.hostLog) } ∧
      t.statusWord.getLsbD 0 = false

/-- R184 to R187: in the in-flight window, a write hazard is dropped and sets OVR, a read hazard returns a free draw (that it is
`Config.freeWord` at the counter of draws is the model's choice, log 5), neither changes a register, and a step with no hazard does not
raise OVR. -/
def Obligations.HazardsAreDroppedWritesAndDrawnReads : Prop :=
  ∀ s t : State, step s = .next t →
    ((s.hazard = some .operandWrite ∨ s.hazard = some .commandIssue) →
      t.ovr = true ∧ t.regs = s.regs ∧ t.lat = s.lat ∧ t.cmd = s.cmd) ∧
    (s.hazard = some .resultRead → t.hostLog = .okayRead (Config.freeWord s.draws) :: s.hostLog ∧ t.regs = s.regs) ∧
    (s.hazard = none → s.ovr = false → t.ovr = false)

/-! ### Arithmetic laws the spec derives -/

/-- R14: modInverse fails exactly when gcd(a, n) is not 1, and otherwise returns the one inverse in [0, n). -/
def Obligations.ModInverseIsTheUniqueInverse : Prop :=
  ∀ a n : Nat, 1 ≤ n →
    (modInverse a n = none ↔ Nat.gcd a n ≠ 1) ∧
    (∀ v, modInverse a n = some v ↔ (isInverse v a n))

/-- R122: the four Montgomery laws, for odd N. -/
def Obligations.MontgomeryLawsHold : Prop :=
  ∀ (W a b N : Nat), N % 2 = 1 →
    montgomery W (a * 2 ^ W % N) (b * 2 ^ W % N) N = some (a * b * 2 ^ W % N) ∧
    montgomery W a (2 ^ W * 2 ^ W % N) N = some (a * 2 ^ W % N) ∧
    (∃ rinv, isInverse rinv (2 ^ W) N ∧ montgomery W a 1 N = some (a * rinv % N)) ∧
    montgomery W a b N = montgomery W b a N ∧
    montgomery W a b N = montgomery W (a % N) (b % N) N

/-- R126: for odd N and any A, FROMMONT of the TOMONT of A is A mod N, as two commands of one machine, the first of which does not write
over the modulus of the second. -/
def Obligations.MontgomeryFormRoundTrip : Prop :=
  ∀ (s : State) (d a n d' : Reg), s.lat = none → s.x n % 2 = 1 → d ≠ n →
    ∃ t u, completed s (encode (.tomont d a n)) = .next t ∧
      completed t (encode (.frommont d' d n)) = .next u ∧
      u.errcode = none ∧ u.x d' = s.x a % s.x n

/-- R144, R153: with a reduced cQ, CRTCOMB stays below p * q, and so does CRTEXP on coprime p, q >= 2; they overflow only when
p * q > 2^W, and such a CRTEXP fails in no other way. -/
def Obligations.CrtResultsStayBelowTheModulusProduct : Prop :=
  (∀ (s t : State) (l : Latch) (d a b n x y : Reg), s.lat = some l → 1 ≤ l.n → l.b < l.x →
    exec (.crtcomb d a b n x y) s = .next t →
    (t.errcode = none → t.x l.d ≤ l.n * l.x - 1) ∧ (t.errcode ≠ none → 2 ^ s.cfg.width < l.n * l.x)) ∧
  (∀ (s t : State) (l : Latch) (d a b n x : Reg), s.lat = some l → 2 ≤ l.n → 2 ≤ l.x → Nat.gcd l.x l.n = 1 →
    exec (.crtexp d a b n x) s = .next t →
    (t.errcode = none → t.x l.d ≤ l.n * l.x - 1) ∧
    (t.errcode ≠ none → t.errcode = some .ovf ∧ 2 ^ s.cfg.width < l.n * l.x))

/-- R149: for distinct primes p and q with p * q < 2^W, CRTEXP and MODEXP with modulus p * q complete OK with the same result for every c
and d, unless p divides c, d > 0 and (p - 1) divides d, or the same of q. -/
def Obligations.CrtexpEqualsModexp : Prop :=
  ∀ (s : State) (d1 c d p q d2 n : Reg), s.lat = none →
    (s.x p).Prime → (s.x q).Prime → s.x p ≠ s.x q → s.x n = s.x p * s.x q → s.x n < 2 ^ s.cfg.width →
    ∃ t u, completed s (encode (.crtexp d1 c d p q)) = .next t ∧ completed s (encode (.modexp d2 c d n)) = .next u ∧
      t.errcode = none ∧ u.errcode = none ∧
      (¬ (s.x p ∣ s.x c ∧ 0 < s.x d ∧ (s.x p - 1) ∣ s.x d) → ¬ (s.x q ∣ s.x c ∧ 0 < s.x d ∧ (s.x q - 1) ∣ s.x d) →
        t.x d1 = u.x d2)

/-- R150, R131: for a valid key with n = p * q < 2^W and any m in [0, n), let c = MODEXP(m, e, n): then MODEXP(c, d, n) = m, and if p and q
are both odd, CRTEXP(c, d, p, q) = m, as commands of one machine, the first of which does not write over the key. -/
def Obligations.RsaRoundTrip : Prop :=
  ∀ (s : State) (rc rm re rd rp rq rn r1 r2 : Reg), s.lat = none →
    ValidKey (s.x rp) (s.x rq) (s.x re) (s.x rd) → s.x rn = s.x rp * s.x rq → s.x rn < 2 ^ s.cfg.width →
    s.x rm < s.x rn → rc ≠ rd → rc ≠ rp → rc ≠ rq → rc ≠ rn →
    ∃ t u v, completed s (encode (.modexp rc rm re rn)) = .next t ∧
      completed t (encode (.modexp r1 rc rd rn)) = .next u ∧ u.errcode = none ∧ u.x r1 = s.x rm ∧
      completed t (encode (.crtexp r2 rc rd rp rq)) = .next v ∧ v.errcode = none ∧
      (s.x rp % 2 = 1 → s.x rq % 2 = 1 → v.x r2 = s.x rm)

/-- R142, R146: under a reduced cP = c^(d mod (p-1)) mod p, cQ = c^(d mod (q-1)) mod q and the inverse qInv of q modulo p held in
registers, CRTCOMB gives what CRTEXP gives: the cached and the recomputed path agree (R141). -/
def Obligations.CachedAndRecomputedCrtAgree : Prop :=
  ∀ (s : State) (d1 c d p q d2 a b y : Reg), s.lat = none → 1 < s.x p → 1 < s.x q →
    s.x a = s.x c ^ (s.x d % (s.x p - 1)) % s.x p → s.x b = s.x c ^ (s.x d % (s.x q - 1)) % s.x q →
    isInverse (s.x y) (s.x q) (s.x p) →
    ∃ t u, completed s (encode (.crtexp d1 c d p q)) = .next t ∧
      completed s (encode (.crtcomb d2 a b p q y)) = .next u ∧
      t.errcode = u.errcode ∧ (t.errcode = none → t.x d1 = u.x d2)
end

