-- ==== Sys2Proof/Laws/Arith.lean ====
section
/-!
SUPPORT. What each integer function of the model computes, said once.
-/

namespace Sys2Proof.Machine

/-- The floor remainder is below the modulus (R12). -/
theorem modZ_lt (a : Int) {N : Nat} (h : 0 < N) : modZ a N < N := by
  have h1 := Int.emod_nonneg a (b := (N : Int)) (by omega)
  have h2 := Int.emod_lt_of_pos a (b := (N : Int)) (by omega)
  unfold modZ; omega

/-- The floor remainder as an integer (R12). -/
theorem modZ_cast (a : Int) {N : Nat} (h : 0 < N) : (modZ a N : Int) = a % N := by
  have h1 := Int.emod_nonneg a (b := (N : Int)) (by omega)
  unfold modZ; omega

/-- On natural numbers the floor remainder is the remainder (R12). -/
theorem modZ_natCast (a N : Nat) : modZ (a : Int) N = a % N := by
  unfold modZ; omega

/-- `extendedGcd` with enough fuel gives the gcd and a Bézout pair (R13). -/
theorem extendedGcdFuel_spec (fuel a b : Nat) (h : a ≤ fuel) :
    (extendedGcdFuel fuel a b).1 = Nat.gcd a b ∧
      (a : Int) * (extendedGcdFuel fuel a b).2.1 + b * (extendedGcdFuel fuel a b).2.2 = Nat.gcd a b := by
  induction fuel generalizing a b with
  | zero => obtain rfl : a = 0 := by omega
            simp [extendedGcdFuel]
  | succ fuel ih =>
    by_cases ha : a = 0
    · simp [extendedGcdFuel, ha]
    · obtain ⟨hg, hb⟩ := ih (b % a) a (by have := Nat.mod_lt b (Nat.pos_of_ne_zero ha); omega)
      have hgcd : Nat.gcd (b % a) a = Nat.gcd a b := by rw [← Nat.gcd_rec]
      simp only [extendedGcdFuel, ha, if_false]
      refine ⟨by rw [hg, hgcd], ?_⟩
      rw [← hgcd, ← hb]
      have hdiv : (b : Int) = a * (b / a : Nat) + (b % a : Nat) := by exact_mod_cast (Nat.div_add_mod b a).symm
      generalize (extendedGcdFuel fuel (b % a) a).2.1 = x
      generalize (extendedGcdFuel fuel (b % a) a).2.2 = y
      rw [hdiv]
      ring_nf

/-- `modInverse` answers exactly when the arguments are coprime (R14). -/
theorem modInverse_isSome (a n : Nat) : (modInverse a n).isSome = true ↔ Nat.gcd a n = 1 := by
  unfold modInverse; split <;> simp_all

/-- What `modInverse` answers is an inverse in [0, n) (R14). -/
theorem modInverse_spec {a n x : Nat} (hn : 0 < n) (h : modInverse a n = some x) : x < n ∧ a * x % n = 1 % n := by
  unfold modInverse at h
  split at h
  case isFalse => simp at h
  case isTrue hg =>
    obtain rfl : modZ (extendedGcd a n).2.1 n = x := by simpa using h
    refine ⟨modZ_lt _ hn, ?_⟩
    have hb := (extendedGcdFuel_spec a a n le_rfl).2
    rw [hg] at hb
    have : ((a * modZ (extendedGcd a n).2.1 n : Nat) : Int) % n = (1 : Nat) % n := by
      push_cast
      rw [modZ_cast _ hn, Int.mul_emod, Int.emod_emod_of_dvd _ (dvd_refl _), ← Int.mul_emod]
      rw [show ((1 : Int)) = a * (extendedGcd a n).2.1 + n * (extendedGcd a n).2.2 from by exact_mod_cast hb.symm]
      simp
    exact_mod_cast this

/-- Squaring with enough fuel computes the power (R15). -/
theorem powmodFuel_eq (fuel a b N : Nat) (h : b ≤ fuel) : powmodFuel fuel a b N = a ^ b % N := by
  induction fuel generalizing a b with
  | zero => obtain rfl : b = 0 := by omega
            simp [powmodFuel]
  | succ fuel ih =>
    by_cases hb : b = 0
    · simp [powmodFuel, hb]
    · have hsq : (a * a % N) ^ (b / 2) % N = a ^ (2 * (b / 2)) % N := by
        rw [← Nat.pow_mod, pow_mul, sq]
      simp only [powmodFuel, hb, if_false, ih (a * a % N) (b / 2) (by omega), hsq]
      split
      case isTrue ho =>
        rw [Nat.mul_mod, Nat.mod_mod, ← Nat.mul_mod]
        conv_rhs => rw [← Nat.div_add_mod b 2, ho, pow_succ]
        rw [mul_comm]
      case isFalse ho => conv_rhs => rw [← Nat.div_add_mod b 2, show b % 2 = 0 by omega, add_zero]

/-- `powmod(a, b, N)` is the exact power reduced (R15). -/
theorem powmod_eq (a b N : Nat) : powmod a b N = a ^ b % N := powmodFuel_eq b a b N le_rfl

/-- The inverse of the radix exists for odd N (R16). -/
theorem montRinv_spec (W : Nat) {N : Nat} (h : N % 2 = 1) :
    ∃ rinv, montRinv W N = some rinv ∧ rinv < N ∧ 2 ^ W * rinv % N = 1 % N := by
  have hg : Nat.gcd (2 ^ W % N) N = 1 := by
    rw [← Nat.gcd_rec, Nat.gcd_comm]
    exact Nat.Coprime.pow_left W ((Nat.coprime_two_left).2 (Nat.odd_iff.2 h))
  obtain ⟨r, hr⟩ := Option.isSome_iff_exists.1 ((modInverse_isSome (2 ^ W % N) N).2 hg)
  obtain ⟨hlt, hmul⟩ := modInverse_spec (by omega) hr
  exact ⟨r, hr, hlt, by rw [← hmul]; simp [Nat.mul_mod]⟩

/-- The Montgomery product of an odd modulus, by its inverse of the radix (R16). -/
theorem montgomery_spec (W a b : Nat) {N : Nat} (h : N % 2 = 1) :
    ∃ rinv, rinv < N ∧ 2 ^ W * rinv % N = 1 % N ∧ montgomery W a b N = some (a * b * rinv % N) := by
  obtain ⟨r, hr, hlt, hmul⟩ := montRinv_spec W h
  exact ⟨r, hlt, hmul, by simp [montgomery, hr]⟩

/-- `crt_combine` without its local names (R143). -/
theorem crtCombine_eq (cP cQ p q qInv : Nat) :
    crtCombine cP cQ p q qInv = cQ + modZ (((cP : Int) - cQ) * qInv) p * q := rfl

end Sys2Proof.Machine
end

