-- ==== Sys2Proof/Laws/Commands.lean ====
section
/-!
SUPPORT. What each command function answers, one lemma per case of its rule.
-/

namespace Sys2Proof.Machine

variable {l : Latch} {W : Nat}

theorem modred_zmod (h : l.n = 0) : modred l = .err .zmod := if_pos h
theorem modred_ok (h : l.n ≠ 0) : modred l = .ok (l.a % l.n) := if_neg h

theorem modsub_zmod (h : l.n = 0) : modsub l = .err .zmod := if_pos h
theorem modsub_ok (h : l.n ≠ 0) : modsub l = .ok (modZ ((l.a : Int) - l.b) l.n) := if_neg h

theorem modmul_zmod (h : l.n = 0) : modmul l = .err .zmod := if_pos h
theorem modmul_ok (h : l.n ≠ 0) : modmul l = .ok (l.a * l.b % l.n) := if_neg h

theorem modexp_zmod (h : l.n = 0) : modexp l = .err .zmod := if_pos h
theorem modexp_ok (h : l.n ≠ 0) : modexp l = .ok (l.a ^ l.b % l.n) := by rw [modexp, if_neg h, powmod_eq]

/-- The modulus check of the Montgomery commands: ZMOD (R163). -/
theorem withOddModulus_zmod {N : Nat} (v : Option Nat) (h : N = 0) : withOddModulus N v = .err .zmod := if_pos h

/-- The modulus check of the Montgomery commands: EVENMOD (R165). -/
theorem withOddModulus_evenmod {N : Nat} (v : Option Nat) (h : N ≠ 0) (h2 : N % 2 = 0) :
    withOddModulus N v = .err .evenmod := by
  unfold withOddModulus; rw [if_neg h, if_pos h2]

/-- The modulus check of the Montgomery commands passes for odd N. -/
theorem withOddModulus_ok {N : Nat} (v : Nat) (h : N % 2 = 1) : withOddModulus N (some v) = .ok v := by
  unfold withOddModulus; rw [if_neg (by omega), if_neg (by omega)]

/-- MONTMUL with an odd modulus (R121). -/
theorem montmul_ok (h : l.n % 2 = 1) :
    ∃ rinv, rinv < l.n ∧ 2 ^ W * rinv % l.n = 1 % l.n ∧ montmul W l = .ok (l.a * l.b * rinv % l.n) := by
  obtain ⟨r, hr, hm, e⟩ := montgomery_spec W l.a l.b h
  exact ⟨r, hr, hm, by rw [montmul, e, withOddModulus_ok _ h]⟩

/-- TOMONT with an odd modulus (R123). -/
theorem tomont_ok (h : l.n % 2 = 1) : tomont W l = .ok (l.a * 2 ^ W % l.n) := withOddModulus_ok _ h

/-- FROMMONT with an odd modulus (R125). -/
theorem frommont_ok (h : l.n % 2 = 1) :
    ∃ rinv, rinv < l.n ∧ 2 ^ W * rinv % l.n = 1 % l.n ∧ frommont W l = .ok (l.a * rinv % l.n) := by
  obtain ⟨r, hr, hm, e⟩ := montgomery_spec W l.a 1 h
  exact ⟨r, hr, hm, by rw [frommont, e, withOddModulus_ok _ h, mul_one]⟩

/-- The width check passes (R167). -/
theorem fitted_ok {m : Nat} (h : m < 2 ^ W) : fitted W m = .ok m := if_neg (by omega)

/-- The width check fails (R167). -/
theorem fitted_ovf {m : Nat} (h : 2 ^ W ≤ m) : fitted W m = .err .ovf := if_pos h

theorem crtcomb_zmod (h : l.n = 0) : crtcomb W l = .err .zmod := if_pos h
theorem crtcomb_fitted (h : l.n ≠ 0) : crtcomb W l = fitted W (crtCombine l.a l.b l.n l.x l.y) := if_neg h

theorem crtexp_zmod (h : l.n ≤ 1 ∨ l.x ≤ 1) : crtexp W l = .err .zmod := if_pos h

/-- Step 3 fails (R147, R164). -/
theorem crtexp_noinv (hp : 1 < l.n) (hq : 1 < l.x) (hg : Nat.gcd l.x l.n ≠ 1) : crtexp W l = .err .noinv := by
  have hi : modInverse l.x l.n = none := by rw [modInverse, if_neg hg]
  rw [crtexp, if_neg (by omega), hi]

/-- The five steps (R146), with exact powers. -/
theorem crtexp_fitted (hp : 1 < l.n) (hq : 1 < l.x) (hg : Nat.gcd l.x l.n = 1) :
    ∃ qInv, qInv < l.n ∧ l.x * qInv % l.n = 1 % l.n ∧
      crtexp W l = fitted W
        (crtCombine (l.a ^ (l.b % (l.n - 1)) % l.n) (l.a ^ (l.b % (l.x - 1)) % l.x) l.n l.x qInv) := by
  obtain ⟨v, hv⟩ := Option.isSome_iff_exists.1 ((modInverse_isSome l.x l.n).2 hg)
  obtain ⟨hlt, hmul⟩ := modInverse_spec (by omega) hv
  exact ⟨v, hlt, hmul, by rw [crtexp, if_neg (by omega), hv]; simp only [powmod_eq]⟩

end Sys2Proof.Machine
end

