-- ==== Sys2Proof/Laws/State.lean ====
section
/-!
SUPPORT. One lemma per field per update of State, so that no proof unfolds a record update.
-/

namespace Sys2Proof.Machine

variable (s : State)

/-! ### setX -/

@[simp] theorem State.setX_cfg (r : Reg) (v : Nat) : (s.setX r v).cfg = s.cfg := rfl
@[simp] theorem State.setX_regs (r : Reg) (v : Nat) : (s.setX r v).regs = s.regs.set r v := rfl
@[simp] theorem State.setX_written (r : Reg) (v : Nat) : (s.setX r v).written = s.written.set r true := rfl
@[simp] theorem State.setX_cmd (r : Reg) (v : Nat) : (s.setX r v).cmd = s.cmd := rfl
@[simp] theorem State.setX_err (r : Reg) (v : Nat) : (s.setX r v).err = s.err := rfl
@[simp] theorem State.setX_ovr (r : Reg) (v : Nat) : (s.setX r v).ovr = s.ovr := rfl
@[simp] theorem State.setX_errcode (r : Reg) (v : Nat) : (s.setX r v).errcode = s.errcode := rfl
@[simp] theorem State.setX_doneie (r : Reg) (v : Nat) : (s.setX r v).doneie = s.doneie := rfl
@[simp] theorem State.setX_done (r : Reg) (v : Nat) : (s.setX r v).done = s.done := rfl
@[simp] theorem State.setX_lat (r : Reg) (v : Nat) : (s.setX r v).lat = s.lat := rfl
@[simp] theorem State.setX_agenda (r : Reg) (v : Nat) : (s.setX r v).agenda = s.agenda := rfl
@[simp] theorem State.setX_hostLog (r : Reg) (v : Nat) : (s.setX r v).hostLog = s.hostLog := rfl
@[simp] theorem State.setX_draws (r : Reg) (v : Nat) : (s.setX r v).draws = s.draws := rfl

/-! ### setOvr -/

@[simp] theorem State.setOvr_cfg : (s.setOvr).cfg = s.cfg := rfl
@[simp] theorem State.setOvr_regs : (s.setOvr).regs = s.regs := rfl
@[simp] theorem State.setOvr_written : (s.setOvr).written = s.written := rfl
@[simp] theorem State.setOvr_cmd : (s.setOvr).cmd = s.cmd := rfl
@[simp] theorem State.setOvr_err : (s.setOvr).err = s.err := rfl
@[simp] theorem State.setOvr_ovr : (s.setOvr).ovr = true := rfl
@[simp] theorem State.setOvr_errcode : (s.setOvr).errcode = s.errcode := rfl
@[simp] theorem State.setOvr_doneie : (s.setOvr).doneie = s.doneie := rfl
@[simp] theorem State.setOvr_done : (s.setOvr).done = s.done := rfl
@[simp] theorem State.setOvr_lat : (s.setOvr).lat = s.lat := rfl
@[simp] theorem State.setOvr_agenda : (s.setOvr).agenda = s.agenda := rfl
@[simp] theorem State.setOvr_hostLog : (s.setOvr).hostLog = s.hostLog := rfl
@[simp] theorem State.setOvr_draws : (s.setOvr).draws = s.draws := rfl

/-! ### clearOvr -/

@[simp] theorem State.clearOvr_cfg : (s.clearOvr).cfg = s.cfg := rfl
@[simp] theorem State.clearOvr_regs : (s.clearOvr).regs = s.regs := rfl
@[simp] theorem State.clearOvr_written : (s.clearOvr).written = s.written := rfl
@[simp] theorem State.clearOvr_cmd : (s.clearOvr).cmd = s.cmd := rfl
@[simp] theorem State.clearOvr_err : (s.clearOvr).err = s.err := rfl
@[simp] theorem State.clearOvr_ovr : (s.clearOvr).ovr = false := rfl
@[simp] theorem State.clearOvr_errcode : (s.clearOvr).errcode = s.errcode := rfl
@[simp] theorem State.clearOvr_doneie : (s.clearOvr).doneie = s.doneie := rfl
@[simp] theorem State.clearOvr_done : (s.clearOvr).done = s.done := rfl
@[simp] theorem State.clearOvr_lat : (s.clearOvr).lat = s.lat := rfl
@[simp] theorem State.clearOvr_agenda : (s.clearOvr).agenda = s.agenda := rfl
@[simp] theorem State.clearOvr_hostLog : (s.clearOvr).hostLog = s.hostLog := rfl
@[simp] theorem State.clearOvr_draws : (s.clearOvr).draws = s.draws := rfl

/-! ### finish -/

@[simp] theorem State.finish_cfg (e : Option CmdError) : (s.finish e).cfg = s.cfg := rfl
@[simp] theorem State.finish_regs (e : Option CmdError) : (s.finish e).regs = s.regs := rfl
@[simp] theorem State.finish_written (e : Option CmdError) : (s.finish e).written = s.written := rfl
@[simp] theorem State.finish_cmd (e : Option CmdError) : (s.finish e).cmd = s.cmd := rfl
@[simp] theorem State.finish_err (e : Option CmdError) : (s.finish e).err = e.isSome := rfl
@[simp] theorem State.finish_ovr (e : Option CmdError) : (s.finish e).ovr = s.ovr := rfl
@[simp] theorem State.finish_errcode (e : Option CmdError) : (s.finish e).errcode = e := rfl
@[simp] theorem State.finish_doneie (e : Option CmdError) : (s.finish e).doneie = s.doneie := rfl
@[simp] theorem State.finish_done (e : Option CmdError) : (s.finish e).done = true := rfl
@[simp] theorem State.finish_lat (e : Option CmdError) : (s.finish e).lat = none := rfl
@[simp] theorem State.finish_agenda (e : Option CmdError) : (s.finish e).agenda = s.agenda := rfl
@[simp] theorem State.finish_hostLog (e : Option CmdError) : (s.finish e).hostLog = s.hostLog := rfl
@[simp] theorem State.finish_draws (e : Option CmdError) : (s.finish e).draws = s.draws := rfl

/-! ### accept -/

@[simp] theorem State.accept_cfg (w : Word) : (s.accept w).cfg = s.cfg := rfl
@[simp] theorem State.accept_regs (w : Word) : (s.accept w).regs = s.regs := rfl
@[simp] theorem State.accept_written (w : Word) : (s.accept w).written = s.written := rfl
@[simp] theorem State.accept_cmd (w : Word) : (s.accept w).cmd = w := rfl
@[simp] theorem State.accept_err (w : Word) : (s.accept w).err = false := rfl
@[simp] theorem State.accept_ovr (w : Word) : (s.accept w).ovr = s.ovr := rfl
@[simp] theorem State.accept_errcode (w : Word) : (s.accept w).errcode = none := rfl
@[simp] theorem State.accept_doneie (w : Word) : (s.accept w).doneie = s.doneie := rfl
@[simp] theorem State.accept_done (w : Word) : (s.accept w).done = s.done := rfl
@[simp] theorem State.accept_lat (w : Word) : (s.accept w).lat = some (latchOf w s) := rfl
@[simp] theorem State.accept_agenda (w : Word) : (s.accept w).agenda = s.agenda := rfl
@[simp] theorem State.accept_hostLog (w : Word) : (s.accept w).hostLog = s.hostLog := rfl
@[simp] theorem State.accept_draws (w : Word) : (s.accept w).draws = s.draws := rfl

/-! ### softReset -/

@[simp] theorem State.softReset_cfg : (s.softReset).cfg = s.cfg := rfl
@[simp] theorem State.softReset_regs : (s.softReset).regs = s.regs := rfl
@[simp] theorem State.softReset_written : (s.softReset).written = s.written := rfl
@[simp] theorem State.softReset_cmd : (s.softReset).cmd = 0x00000000#32 := rfl
@[simp] theorem State.softReset_err : (s.softReset).err = false := rfl
@[simp] theorem State.softReset_ovr : (s.softReset).ovr = false := rfl
@[simp] theorem State.softReset_errcode : (s.softReset).errcode = none := rfl
@[simp] theorem State.softReset_doneie : (s.softReset).doneie = false := rfl
@[simp] theorem State.softReset_done : (s.softReset).done = false := rfl
@[simp] theorem State.softReset_lat : (s.softReset).lat = none := rfl
@[simp] theorem State.softReset_agenda : (s.softReset).agenda = s.agenda := rfl
@[simp] theorem State.softReset_hostLog : (s.softReset).hostLog = s.hostLog := rfl
@[simp] theorem State.softReset_draws : (s.softReset).draws = s.draws := rfl

/-! ### hardReset -/

@[simp] theorem State.hardReset_cfg : (s.hardReset).cfg = s.cfg := rfl
@[simp] theorem State.hardReset_regs : (s.hardReset).regs = Vector.ofFn s.drawnOperand := rfl
@[simp] theorem State.hardReset_written : (s.hardReset).written = Vector.replicate 16 false := rfl
@[simp] theorem State.hardReset_cmd : (s.hardReset).cmd = 0x00000000#32 := rfl
@[simp] theorem State.hardReset_err : (s.hardReset).err = false := rfl
@[simp] theorem State.hardReset_ovr : (s.hardReset).ovr = false := rfl
@[simp] theorem State.hardReset_errcode : (s.hardReset).errcode = none := rfl
@[simp] theorem State.hardReset_doneie : (s.hardReset).doneie = false := rfl
@[simp] theorem State.hardReset_done : (s.hardReset).done = false := rfl
@[simp] theorem State.hardReset_lat : (s.hardReset).lat = none := rfl
@[simp] theorem State.hardReset_agenda : (s.hardReset).agenda = s.agenda := rfl
@[simp] theorem State.hardReset_hostLog : (s.hardReset).hostLog = s.hostLog := rfl
@[simp] theorem State.hardReset_draws : (s.hardReset).draws = s.draws + 16 := rfl

/-! ### answer -/

@[simp] theorem State.answer_cfg (a : Response) (b : Bool) : (s.answer a b).cfg = s.cfg := rfl
@[simp] theorem State.answer_regs (a : Response) (b : Bool) : (s.answer a b).regs = s.regs := rfl
@[simp] theorem State.answer_written (a : Response) (b : Bool) : (s.answer a b).written = s.written := rfl
@[simp] theorem State.answer_cmd (a : Response) (b : Bool) : (s.answer a b).cmd = s.cmd := rfl
@[simp] theorem State.answer_err (a : Response) (b : Bool) : (s.answer a b).err = s.err := rfl
@[simp] theorem State.answer_ovr (a : Response) (b : Bool) : (s.answer a b).ovr = s.ovr := rfl
@[simp] theorem State.answer_errcode (a : Response) (b : Bool) : (s.answer a b).errcode = s.errcode := rfl
@[simp] theorem State.answer_doneie (a : Response) (b : Bool) : (s.answer a b).doneie = s.doneie := rfl
@[simp] theorem State.answer_done (a : Response) (b : Bool) : (s.answer a b).done = s.done := rfl
@[simp] theorem State.answer_lat (a : Response) (b : Bool) : (s.answer a b).lat = s.lat := rfl
@[simp] theorem State.answer_agenda (a : Response) (b : Bool) : (s.answer a b).agenda = s.agenda := rfl
@[simp] theorem State.answer_hostLog (a : Response) (b : Bool) : (s.answer a b).hostLog = a :: s.hostLog := rfl
@[simp] theorem State.answer_draws (a : Response) (b : Bool) : (s.answer a b).draws = if b then s.draws + 1 else s.draws := rfl

/-! ### Registers, BUSY and irq under the updates -/

@[simp] theorem State.x_setX (r r' : Reg) (v : Nat) : (s.setX r v).x r' = if r' = r then v else s.x r' := by
  by_cases h : r' = r
  · subst h; simp [State.x, State.setX]
  · have h' : r.val ≠ r'.val := fun e => h (Fin.ext e.symm)
    simp [State.x, State.setX, h, h']

@[simp] theorem State.isWritten_setX (r r' : Reg) (v : Nat) :
    (s.setX r v).isWritten r' = if r' = r then true else s.isWritten r' := by
  by_cases h : r' = r
  · subst h; simp [State.isWritten, State.setX]
  · have h' : r.val ≠ r'.val := fun e => h (Fin.ext e.symm)
    simp [State.isWritten, State.setX, h, h']

@[simp] theorem State.busy_setX (r : Reg) (v : Nat) : (s.setX r v).busy = s.busy := rfl
@[simp] theorem State.x_setOvr (r : Reg) : (s.setOvr).x r = s.x r := rfl
@[simp] theorem State.isWritten_setOvr (r : Reg) : (s.setOvr).isWritten r = s.isWritten r := rfl
@[simp] theorem State.busy_setOvr : (s.setOvr).busy = s.busy := rfl
@[simp] theorem State.x_clearOvr (r : Reg) : (s.clearOvr).x r = s.x r := rfl
@[simp] theorem State.isWritten_clearOvr (r : Reg) : (s.clearOvr).isWritten r = s.isWritten r := rfl
@[simp] theorem State.busy_clearOvr : (s.clearOvr).busy = s.busy := rfl
@[simp] theorem State.x_finish (e : Option CmdError) (r : Reg) : (s.finish e).x r = s.x r := rfl
@[simp] theorem State.isWritten_finish (e : Option CmdError) (r : Reg) : (s.finish e).isWritten r = s.isWritten r := rfl
@[simp] theorem State.busy_finish (e : Option CmdError) : (s.finish e).busy = false := rfl
@[simp] theorem State.x_accept (w : Word) (r : Reg) : (s.accept w).x r = s.x r := rfl
@[simp] theorem State.isWritten_accept (w : Word) (r : Reg) : (s.accept w).isWritten r = s.isWritten r := rfl
@[simp] theorem State.busy_accept (w : Word) : (s.accept w).busy = true := rfl
@[simp] theorem State.x_softReset (r : Reg) : (s.softReset).x r = s.x r := rfl
@[simp] theorem State.isWritten_softReset (r : Reg) : (s.softReset).isWritten r = s.isWritten r := rfl
@[simp] theorem State.busy_softReset : (s.softReset).busy = false := rfl
@[simp] theorem State.busy_hardReset : (s.hardReset).busy = false := rfl
@[simp] theorem State.x_answer (a : Response) (b : Bool) (r : Reg) : (s.answer a b).x r = s.x r := rfl
@[simp] theorem State.isWritten_answer (a : Response) (b : Bool) (r : Reg) : (s.answer a b).isWritten r = s.isWritten r := rfl
@[simp] theorem State.busy_answer (a : Response) (b : Bool) : (s.answer a b).busy = s.busy := rfl

@[simp] theorem State.x_hardReset (r : Reg) : s.hardReset.x r = s.drawnOperand r := by
  simp [State.x]

@[simp] theorem State.isWritten_hardReset (r : Reg) : s.hardReset.isWritten r = false := by
  simp [State.isWritten]

@[simp] theorem State.x_agenda (es : List Event) (r : Reg) : State.x { s with agenda := es } r = s.x r := rfl

@[simp] theorem State.busy_agenda (es : List Event) : State.busy { s with agenda := es } = s.busy := rfl

/-- BUSY is the presence of the latch. -/
theorem State.busy_eq_true_iff : s.busy = true ↔ ∃ l, s.lat = some l := by
  simp [State.busy, Option.isSome_iff_exists]

theorem State.busy_eq_false_iff : s.busy = false ↔ s.lat = none := by
  simp [State.busy]

/-- The latch depends on the operand registers only. -/
theorem latchOf_congr (w : Word) (s s' : State) (h : ∀ r, s'.x r = s.x r) : latchOf w s' = latchOf w s := by
  simp [latchOf, h]

@[simp] theorem latchOf_word (w : Word) : (latchOf w s).word = w := rfl
@[simp] theorem latchOf_d (w : Word) : (latchOf w s).d = fieldRD w := rfl
@[simp] theorem latchOf_a (w : Word) : (latchOf w s).a = s.x (fieldRA w) := rfl
@[simp] theorem latchOf_b (w : Word) : (latchOf w s).b = s.x (fieldRB w) := rfl
@[simp] theorem latchOf_n (w : Word) : (latchOf w s).n = s.x (fieldRN w) := rfl
@[simp] theorem latchOf_x (w : Word) : (latchOf w s).x = s.x (fieldRX w) := rfl
@[simp] theorem latchOf_y (w : Word) : (latchOf w s).y = s.x (fieldRY w) := rfl

/-! ### complete: the three outcomes of R166 -/

@[simp] theorem State.complete_ok (l : Latch) (v : Nat) : s.complete l (.ok v) = (s.setX l.d v).finish none := rfl
@[simp] theorem State.complete_okNone (l : Latch) : s.complete l .okNone = s.finish none := rfl
@[simp] theorem State.complete_err (l : Latch) (e : CmdError) : s.complete l (.err e) = s.finish (some e) := rfl

end Sys2Proof.Machine
end

