-- ==== Sys2Proof/Laws/Exec.lean ====
section
/-!
SUPPORT. What a completion can do, said once: every command's step is its command function applied to the latch.
-/

namespace Sys2Proof.Machine

/-- The command function of each command (R101), of the width and the latch. -/
def commandResult : Instr → Nat → Latch → CmdResult
  | .nop, _ => nop
  | .modred .., _ => modred
  | .modsub .., _ => modsub
  | .modmul .., _ => modmul
  | .montmul .., W => montmul W
  | .tomont .., W => tomont W
  | .frommont .., W => frommont W
  | .modexp .., _ => modexp
  | .crtcomb .., W => crtcomb W
  | .crtexp .., W => crtexp W

/-- `exec` is the execution template around the command function (R101). -/
theorem exec_eq (i : Instr) (s : State) : exec i s = completeWith (commandResult i s.cfg.width) s := by
  cases i <;> rfl

/-- With a command in flight, `exec` completes it (R166). -/
theorem exec_inFlight (i : Instr) {s : State} {l : Latch} (h : s.lat = some l) :
    exec i s = .next (s.complete l (commandResult i s.cfg.width l)) := by
  rw [exec_eq, completeWith, h]

/-- With no command in flight, `exec` changes nothing (R18, log 7). -/
theorem exec_idle (i : Instr) {s : State} (h : s.lat = none) : exec i s = .next s := by
  rw [exec_eq, completeWith, h]

/-- After acceptance, `exec` completes the latch just taken (R36, R166). -/
theorem exec_accept (i : Instr) (s : State) (w : Word) :
    exec i (s.accept w) = .next ((s.accept w).complete (latchOf w s) (commandResult i s.cfg.width (latchOf w s))) :=
  exec_inFlight i rfl

/-- An illegal word's completion (R161). -/
theorem completeIllegal_inFlight {s : State} {l : Latch} (h : s.lat = some l) :
    completeIllegal s = .next (s.finish (some .illegal)) := by
  rw [completeIllegal, completeWith, h]; rfl

theorem engineStep_idle {s : State} (h : s.lat = none) : engineStep s = .next s := by
  rw [engineStep, h]

theorem engineStep_ok {s : State} {l : Latch} {i : Instr} (h : s.lat = some l) (hd : decode l.word = .ok i) :
    engineStep s = exec i s := by
  simp only [engineStep, h, hd]

theorem engineStep_illegal {s : State} {l : Latch} {e : IllegalWord} (h : s.lat = some l) (hd : decode l.word = .error e) :
    engineStep s = .next (s.finish (some .illegal)) := by
  rw [← completeIllegal_inFlight h]; simp only [engineStep, h, hd]

/-- The engine's turn always ends in a next state: unchanged when idle, else a completion (R18, R166). -/
theorem engineStep_cases (s : State) :
    (s.lat = none ∧ engineStep s = .next s) ∨
      ∃ l out, s.lat = some l ∧ engineStep s = .next (s.complete l out) ∧
        ((∃ i, decode l.word = .ok i ∧ out = commandResult i s.cfg.width l) ∨
          (∃ e, decode l.word = .error e ∧ out = .err .illegal)) := by
  cases h : s.lat with
  | none => exact .inl ⟨rfl, engineStep_idle h⟩
  | some l =>
    cases hd : decode l.word with
    | ok i => exact .inr ⟨l, _, rfl, by rw [engineStep_ok h hd, exec_inFlight i h], .inl ⟨i, hd, rfl⟩⟩
    | error e => exact .inr ⟨l, _, rfl, by rw [engineStep_illegal h hd]; rfl, .inr ⟨e, hd, rfl⟩⟩

/-- Every command but NOP ends with a value or with an error (R101, R166). -/
theorem commandResult_ne_okNone {i : Instr} (h : i ≠ .nop) (W : Nat) (l : Latch) : commandResult i W l ≠ .okNone := by
  have montgomeryCheck (v : Option Nat) : withOddModulus l.n v ≠ .okNone := by
    unfold withOddModulus; repeat' split
    all_goals simp
  have widthCheck (m : Nat) : fitted W m ≠ .okNone := by unfold fitted; split <;> simp
  cases i with
  | nop => exact absurd rfl h
  | modred | modsub | modmul | modexp => simp only [commandResult, modred, modsub, modmul, modexp]; split <;> simp
  | montmul | frommont => exact montgomeryCheck _
  | tomont => exact montgomeryCheck (some _)
  | crtcomb => simp only [commandResult, crtcomb]; split <;> simp [widthCheck]
  | crtexp => simp only [commandResult, crtexp]; split <;> [simp; (split <;> simp [widthCheck])]

/-- A command that ends with a value is not NOP (R100). -/
theorem ne_nop_of_commandResult_ok {i : Instr} {W v : Nat} {l : Latch} (h : commandResult i W l = .ok v) : i ≠ .nop := by
  rintro rfl; simp [commandResult, nop] at h

/-! ### What every completion leaves alone, and what it always sets (R166) -/

section Complete
variable (s : State) (l : Latch) (out : CmdResult)

@[simp] theorem State.complete_cfg : (s.complete l out).cfg = s.cfg := by cases out <;> rfl
@[simp] theorem State.complete_cmd : (s.complete l out).cmd = s.cmd := by cases out <;> rfl
@[simp] theorem State.complete_ovr : (s.complete l out).ovr = s.ovr := by cases out <;> rfl
@[simp] theorem State.complete_doneie : (s.complete l out).doneie = s.doneie := by cases out <;> rfl
@[simp] theorem State.complete_agenda : (s.complete l out).agenda = s.agenda := by cases out <;> rfl
@[simp] theorem State.complete_hostLog : (s.complete l out).hostLog = s.hostLog := by cases out <;> rfl
@[simp] theorem State.complete_draws : (s.complete l out).draws = s.draws := by cases out <;> rfl
@[simp] theorem State.complete_lat : (s.complete l out).lat = none := by cases out <;> rfl
@[simp] theorem State.complete_busy : (s.complete l out).busy = false := by cases out <;> rfl
@[simp] theorem State.complete_done : (s.complete l out).done = true := by cases out <;> rfl

theorem State.complete_err_eq : (s.complete l out).err = (s.complete l out).errcode.isSome := by cases out <;> rfl

/-- A register that is not the destination keeps its value (R20, R166). -/
theorem State.complete_x_of_ne {r : Reg} (h : r ≠ l.d) : (s.complete l out).x r = s.x r := by
  cases out <;> simp [h]

/-- A completion with OK(v) marks its destination written, whatever the value (R20, U1). -/
theorem State.complete_isWritten (h : out ≠ .okNone) (he : (s.complete l out).errcode = none) :
    (s.complete l out).isWritten l.d = true := by
  cases out with
  | ok v => simp [State.complete]
  | okNone => exact absurd rfl h
  | err e => simp [State.complete] at he

end Complete

end Sys2Proof.Machine
end

