-- ==== Sys2Proof/Laws/Step.lean ====
section
/-!
SUPPORT. What one step can do, said once.
-/

namespace Sys2Proof.Machine

theorem step_nil {s : State} (h : s.agenda = []) : step s = engineStep s := by
  rw [step, h]

theorem step_engine {s : State} {rest : List Event} (h : s.agenda = .engine :: rest) :
    step s = engineStep { s with agenda := rest } := by
  rw [step, h]

theorem step_host {s : State} {a : Access} {rest : List Event} (h : s.agenda = .host a :: rest) :
    step s = hostStep a { s with agenda := rest } := by
  rw [step, h]

theorem step_hardReset {s : State} {rest : List Event} (h : s.agenda = .hardReset :: rest) :
    step s = .next (State.hardReset { s with agenda := rest }) := by
  rw [step, h]

/-- A host step on a defined access (R50, R59). -/
theorem hostStep_defined {a : Access} {s : State} (h : a.defined s.cfg = true) :
    hostStep a s = .next ((s.access a).answer (s.respond a) (s.accessDraws a)) := by
  rw [hostStep, if_pos h]

/-- A host step on an undefined access is the one fault (R51). -/
theorem hostStep_undefined {a : Access} {s : State} (h : a.defined s.cfg = false) :
    hostStep a s = .fault (.busError a) := by
  rw [hostStep, if_neg (by simp [h])]

/-- A run of one more step goes on from the state the step answers. -/
theorem run_succ_of_next (M : Host.Core) {k : Nat} {s t : M.State} (h : M.step s = .next t) : M.run (k + 1) s = M.run k t := by
  simp [Host.Core.run, h]

/-- The same, of the machine handed to the host. -/
theorem core_run_succ {k : Nat} {s t : State} (h : step s = .next t) :
    Sys2Proof.core.run (k + 1) s = Sys2Proof.core.run k t :=
  run_succ_of_next _ h

/-- Every way a step can answer a next state: the engine's turn, a defined access, or a hardware reset. -/
theorem step_next_cases {s t : State} (h : step s = .next t) :
    (∃ rest, (s.agenda = .engine :: rest ∨ s.agenda = [] ∧ rest = []) ∧ engineStep { s with agenda := rest } = .next t) ∨
      (∃ a rest, s.agenda = .host a :: rest ∧ a.defined s.cfg = true ∧
        t = State.answer (State.access { s with agenda := rest } a)
          (State.respond { s with agenda := rest } a) (State.accessDraws { s with agenda := rest } a)) ∨
      (∃ rest, s.agenda = .hardReset :: rest ∧ t = State.hardReset { s with agenda := rest }) := by
  match ha : s.agenda with
  | [] =>
    refine .inl ⟨[], .inr ⟨rfl, rfl⟩, ?_⟩
    rw [step_nil ha] at h
    rw [← h]; congr 1; cases s; simp_all
  | .engine :: rest => exact .inl ⟨rest, .inl rfl, by rw [← h, step_engine ha]⟩
  | .host a :: rest =>
    rw [step_host ha] at h
    cases hd : a.defined s.cfg with
    | false => rw [hostStep_undefined (s := { s with agenda := rest }) hd] at h; cases h
    | true =>
      rw [hostStep_defined (s := { s with agenda := rest }) hd] at h
      exact .inr (.inl ⟨a, rest, rfl, hd, by cases h; rfl⟩)
  | .hardReset :: rest =>
    rw [step_hardReset ha] at h
    exact .inr (.inr ⟨rest, rfl, by cases h; rfl⟩)

/-- What a defined access can do to the block: nothing (every read; a write to a read-only, reserved or too high word, and a write
of 0 to a bit that is cleared by 1), acceptance, a dropped write, a write of IRQEN, a clear of DONE, a soft reset, a clear of OVR,
or a write of one operand word (R22, R52). -/
theorem access_cases (s : State) (a : Access) :
    s.access a = s ∨ (∃ w, s.lat = none ∧ s.access a = s.accept w) ∨ (s.busy = true ∧ s.access a = s.setOvr) ∨
      (∃ b, s.access a = { s with doneie := b }) ∨ s.access a = { s with done := false } ∨
      s.access a = s.softReset ∨ s.access a = s.clearOvr ∨
      (∃ r k data, s.lat = none ∧ k < s.cfg.nw ∧ s.access a = s.setX r (replaceWord (s.x r) k data)) := by
  cases a with
  | read addr n => exact .inl rfl
  | write addr n data =>
    simp only [State.access]
    cases targetOf (s.offset addr) with
    | id => exact .inl rfl
    | param => exact .inl rfl
    | status => exact .inl rfl
    | reserved => exact .inl rfl
    | cmd =>
      cases hb : s.busy with
      | true => exact .inr (.inr (.inl ⟨rfl, by simp [State.writeTarget, State.writeCmd, hb]⟩))
      | false =>
        exact .inr (.inl ⟨data, s.busy_eq_false_iff.1 hb, by simp [State.writeTarget, State.writeCmd, hb]⟩)
    | irqen => exact .inr (.inr (.inr (.inl ⟨_, rfl⟩)))
    | irqstat =>
      by_cases h : data.getLsbD 0 = true
      · exact .inr (.inr (.inr (.inr (.inl (by simp only [State.writeTarget, h, if_true])))))
      · exact .inl (by simp only [State.writeTarget, h]; rfl)
    | ctrl =>
      by_cases h : data.getLsbD 0 = true
      · exact .inr (.inr (.inr (.inr (.inr (.inl (by simp only [State.writeTarget, State.writeCtrl, h, if_true]))))))
      · by_cases h' : data.getLsbD 1 = true
        · refine .inr (.inr (.inr (.inr (.inr (.inr (.inl ?_))))))
          simp only [State.writeTarget, State.writeCtrl, h, h', if_true]; rfl
        · exact .inl (by simp only [State.writeTarget, State.writeCtrl, h, h']; rfl)
    | operand r k =>
      cases hb : s.busy with
      | true => exact .inr (.inr (.inl ⟨rfl, by simp [State.writeTarget, State.writeOperand, hb]⟩))
      | false =>
        by_cases hk : k < s.cfg.nw
        · exact .inr (.inr (.inr (.inr (.inr (.inr (.inr
            ⟨r, k, data, s.busy_eq_false_iff.1 hb, hk, by simp [State.writeTarget, State.writeOperand, hb, hk]⟩))))))
        · exact .inl (by simp [State.writeTarget, State.writeOperand, hb, hk])

end Sys2Proof.Machine
end

