-- ==== Sys2Proof/Laws/Bus.lean ====
section
/-!
SUPPORT. The address map and the words of an operand register.
-/

namespace Sys2Proof.Machine

/-- The control space past CTRL is reserved (R33). -/
theorem controlOf_reserved {off : Nat} (h : 0x01C ≤ off) : controlOf off = .reserved := by
  unfold controlOf
  split <;> first | rfl | omega

/-- The control space holds no operand register (R52). -/
theorem controlOf_ne_operand (off : Nat) (r : Reg) (k : Nat) : controlOf off ≠ .operand r k := by
  unfold controlOf
  split <;> simp

/-- Below 0x1000 the address map is that of the control registers (R22, R52). -/
theorem targetOf_control {off : Nat} (h : off < 0x1000) : targetOf off = controlOf off := if_pos h

/-- From 0x1000 to 0x2FFF it is the operand window (R52). -/
theorem targetOf_window {off : Nat} (h : 0x1000 ≤ off) (h' : off < 0x3000) : targetOf off = operandAt (off - 0x1000) := by
  simp [targetOf, Nat.not_lt.2 h, h']

/-- From 0x3000 it is reserved (R52). -/
theorem targetOf_above {off : Nat} (h : 0x3000 ≤ off) : targetOf off = .reserved := by
  simp [targetOf, Nat.not_lt.2 h, Nat.not_lt.2 (Nat.le_trans (by decide : 0x1000 ≤ 0x3000) h)]

/-! The seven control registers (R22). -/

@[simp] theorem targetOf_id : targetOf 0x000 = .id := rfl
@[simp] theorem targetOf_param : targetOf 0x004 = .param := rfl
@[simp] theorem targetOf_cmd : targetOf 0x008 = .cmd := rfl
@[simp] theorem targetOf_status : targetOf 0x00C = .status := rfl
@[simp] theorem targetOf_irqen : targetOf 0x010 = .irqen := rfl
@[simp] theorem targetOf_irqstat : targetOf 0x014 = .irqstat := rfl
@[simp] theorem targetOf_ctrl : targetOf 0x018 = .ctrl := rfl

/-- Offset 0x1000 + 0x200*r + 4*k is word k of register r (R53). -/
theorem targetOf_operand (r : Reg) {k : Nat} (hk : k < 128) : targetOf (0x1000 + 0x200 * r.val + 4 * k) = .operand r k := by
  have hr := r.isLt
  rw [targetOf_window (by omega) (by omega), operandAt]
  congr 1
  · apply Fin.ext; simp [Fin.ofNat]; omega
  · omega

/-- Outside the defined words the control space and the upper range are reserved (R33, R52). -/
theorem targetOf_reserved {off : Nat} (h : (0x01C ≤ off ∧ off < 0x1000) ∨ 0x3000 ≤ off) : targetOf off = .reserved := by
  rcases h with ⟨hlo, hhi⟩ | h
  · rw [targetOf_control hhi, controlOf_reserved hlo]
  · exact targetOf_above h

/-- An aligned offset that addresses word k of register r is 0x1000 + 0x200*r + 4*k (R53). -/
theorem targetOf_eq_operand {off k : Nat} {r : Reg} (h4 : off % 4 = 0) (h : targetOf off = .operand r k) :
    off = 0x1000 + 0x200 * r.val + 4 * k ∧ k < 128 := by
  by_cases hlo : off < 0x1000
  · rw [targetOf_control hlo] at h
    exact absurd h (controlOf_ne_operand off r k)
  by_cases hhi : off < 0x3000
  · rw [targetOf_window (by omega) hhi, operandAt] at h
    injection h with h1 h2
    have hval := congrArg Fin.val h1
    simp [Fin.ofNat] at hval
    omega
  · rw [targetOf_above (by omega)] at h
    simp at h

/-- A read is a free draw exactly when it is of the operand window while a command is in flight (R52, R56). -/
theorem State.drawsOn_targetOf (s : State) (off : Nat) :
    s.drawsOn (targetOf off) = true ↔ s.busy = true ∧ 0x1000 ≤ off ∧ off < 0x3000 := by
  by_cases hlo : off < 0x1000
  · have hd : s.drawsOn (controlOf off) = false := by
      unfold State.drawsOn
      split
      · exact absurd ‹_› (controlOf_ne_operand off _ _)
      · rfl
    simp [targetOf_control hlo, hd, Nat.not_le.2 hlo]
  by_cases hhi : off < 0x3000
  · simp [targetOf_window (Nat.not_lt.1 hlo) hhi, operandAt, State.drawsOn, Nat.not_lt.1 hlo, hhi]
  · simp [targetOf_above (Nat.not_lt.1 hhi), State.drawsOn, hhi]

/-- An access is defined exactly when it is of 4 bytes, aligned and in the block (R51). -/
theorem Access.defined_iff (c : Config) (a : Access) :
    a.defined c = true ↔ a.bytes = 4 ∧ a.addr % 4 = 0 ∧ c.base ≤ a.addr ∧ a.addr < c.base + 0x4000 := by
  simp [Access.defined, and_assoc]

/-- A 4-byte access at an aligned offset below 0x4000 is defined: BASE is aligned (R9, R51). -/
theorem Access.read_defined (c : Config) {off : Nat} (h : off < 0x4000) (h4 : off % 4 = 0) :
    (Access.read (c.base + off) 4).defined c = true := by
  have := c.base_aligned
  exact (Access.defined_iff _ _).2 ⟨rfl, by simp only [Access.addr]; omega, Nat.le_add_right _ _, Nat.add_lt_add_left h _⟩

theorem Access.write_defined (c : Config) {off : Nat} (v : Word) (h : off < 0x4000) (h4 : off % 4 = 0) :
    (Access.write (c.base + off) 4 v).defined c = true := by
  have := c.base_aligned
  exact (Access.defined_iff _ _).2 ⟨rfl, by simp only [Access.addr]; omega, Nat.le_add_right _ _, Nat.add_lt_add_left h _⟩

/-- Replacing one word keeps a value inside the register's width (R20, R53). -/
theorem replaceWord_lt {v k nw : Nat} (data : Word) (hv : v < 2 ^ (32 * nw)) (hk : k < nw) :
    replaceWord v k data < 2 ^ (32 * nw) := by
  obtain ⟨m, rfl⟩ : ∃ m, nw = k + 1 + m := ⟨nw - (k + 1), by omega⟩
  have e : (2 : Nat) ^ (32 * (k + 1 + m)) = 2 ^ (32 * k + 32) * 2 ^ (32 * m) := by rw [← pow_add]; congr 1; ring
  have hd : v / 2 ^ (32 * k + 32) < 2 ^ (32 * m) := by
    rw [Nat.div_lt_iff_lt_mul (by positivity), mul_comm, ← e]; exact hv
  have hlo := Nat.mod_lt v (show 0 < 2 ^ (32 * k) by positivity)
  have hw := data.isLt
  have e2 : (2 : Nat) ^ (32 * k + 32) = 2 ^ 32 * 2 ^ (32 * k) := by rw [pow_add, mul_comm]
  have hmid : v % 2 ^ (32 * k) + data.toNat * 2 ^ (32 * k) < 2 ^ (32 * k + 32) := by
    have hm : (data.toNat + 1) * 2 ^ (32 * k) ≤ 2 ^ 32 * 2 ^ (32 * k) := Nat.mul_le_mul_right _ hw
    rw [e2]; linarith [add_mul data.toNat 1 (2 ^ (32 * k))]
  have hhi : (v / 2 ^ (32 * k + 32) + 1) * 2 ^ (32 * k + 32) ≤ 2 ^ (32 * m) * 2 ^ (32 * k + 32) :=
    Nat.mul_le_mul_right _ hd
  unfold replaceWord
  rw [e, mul_comm (2 ^ (32 * k + 32))]
  linarith [hhi, hmid, add_mul (v / 2 ^ (32 * k + 32)) 1 (2 ^ (32 * k + 32))]

/-- A drawn operand is inside the register's width (R20). -/
theorem State.drawnOperand_lt (s : State) (r : Reg) : s.drawnOperand r < 2 ^ s.cfg.width :=
  Nat.mod_lt _ (by positivity)

/-! ### A defined access leaves the model's own fields to the answer, and never touches the configuration -/

theorem State.access_keeps (s : State) (a : Access) :
    (s.access a).cfg = s.cfg ∧ (s.access a).agenda = s.agenda ∧ (s.access a).hostLog = s.hostLog ∧ (s.access a).draws = s.draws := by
  obtain h | ⟨w, -, h⟩ | ⟨-, h⟩ | ⟨b, h⟩ | h | h | h | ⟨r, k, v, -, -, h⟩ := access_cases s a
  all_goals rw [h]; exact ⟨rfl, rfl, rfl, rfl⟩

@[simp] theorem State.access_cfg (s : State) (a : Access) : (s.access a).cfg = s.cfg := (s.access_keeps a).1
@[simp] theorem State.access_agenda (s : State) (a : Access) : (s.access a).agenda = s.agenda := (s.access_keeps a).2.1
@[simp] theorem State.access_hostLog (s : State) (a : Access) : (s.access a).hostLog = s.hostLog := (s.access_keeps a).2.2.1
@[simp] theorem State.access_draws (s : State) (a : Access) : (s.access a).draws = s.draws := (s.access_keeps a).2.2.2

/-- One 4-byte read inside the block: its answer is recorded, a draw is counted, and nothing else changes (R56, R60). -/
theorem step_read {s : State} {off : Nat} {rest : List Event} (h : s.agenda = .host (.read (s.cfg.base + off) 4) :: rest)
    (hlt : off < 0x4000) (h4 : off % 4 = 0) :
    step s = .next { s with
      agenda := rest, hostLog := .okayRead (s.readData (targetOf off)) :: s.hostLog
      draws := if s.drawsOn (targetOf off) then s.draws + 1 else s.draws } := by
  have hd := Access.read_defined s.cfg hlt h4
  rw [step_host h, hostStep_defined (s := { s with agenda := rest }) hd]
  simp only [State.respond]
  rw [if_pos hd]
  simp only [State.access, State.answer, State.accessDraws, State.offset, Nat.add_sub_cancel_left]
  cases targetOf off <;> rfl

/-- One 4-byte write inside the block: it does what its target says, and is answered OKAY (R22, R52). -/
theorem step_write {s : State} {off : Nat} {v : Word} {rest : List Event}
    (h : s.agenda = .host (.write (s.cfg.base + off) 4 v) :: rest) (hlt : off < 0x4000) (h4 : off % 4 = 0) :
    step s = .next ((State.writeTarget { s with agenda := rest } (targetOf off) v).answer .okayWrite false) := by
  have hd := Access.write_defined s.cfg v hlt h4
  rw [step_host h, hostStep_defined (s := { s with agenda := rest }) hd]
  simp only [State.respond]
  rw [if_pos hd]
  simp only [State.access, State.accessDraws, State.offset, Nat.add_sub_cancel_left]

end Sys2Proof.Machine
end

