-- ==== Sys2Proof/Laws/Decode.lean ====
section
/-!
SUPPORT. Reading a field of a word, packing fields into a word, and reading a packed field back.
-/

namespace Sys2Proof

/-- A field of a word by division and remainder (R11, R70). -/
theorem nibble_val (w : Word) (lo : Nat) : (nibble w lo).val = w.toNat / 2 ^ lo % 16 := by
  simp [nibble, Nat.shiftRight_eq_div_pow]

theorem fieldWord_toNat (f : Fin 16) : (fieldWord f).toNat = f.val := by
  have := f.isLt
  simp [fieldWord]; omega

theorem fieldWord_nibble (w : Word) (lo : Nat) : fieldWord (nibble w lo) = (w.extractLsb' lo 4).setWidth 32 := rfl

theorem fieldWord_injective {f g : Fin 16} (h : fieldWord f = fieldWord g) : f = g := by
  apply Fin.ext; rw [← fieldWord_toNat, ← fieldWord_toNat, h]

/-- The number a packed word is, one hex digit per field (R70, R80). -/
theorem packFields_toNat (op rd ra rb rn rx ry : Fin 16) :
    (packFields op rd ra rb rn rx ry).toNat =
      op.val + 16 * rd.val + 16 ^ 2 * ra.val + 16 ^ 3 * rb.val + 16 ^ 4 * rn.val + 16 ^ 5 * rx.val + 16 ^ 6 * ry.val := by
  have h0 := op.isLt; have h1 := rd.isLt; have h2 := ra.isLt; have h3 := rb.isLt
  have h4 := rn.isLt; have h5 := rx.isLt; have h6 := ry.isLt
  have key : ∀ (k a b : Nat), a < 2 ^ k → a ||| (b <<< k) = a + b * 2 ^ k := by
    intro k a b h
    rw [Nat.or_comm, ← Nat.shiftLeft_add_eq_or_of_lt h, Nat.shiftLeft_eq, Nat.add_comm]
  have sh : ∀ (f : Fin 16) (k : Nat), k ≤ 24 → (fieldWord f <<< k).toNat = f.val <<< k := by
    intro f k hk
    have := f.isLt
    rw [BitVec.toNat_shiftLeft, fieldWord_toNat, Nat.shiftLeft_eq, Nat.mod_eq_of_lt]
    calc f.val * 2 ^ k < 2 ^ 4 * 2 ^ k := by gcongr; omega
      _ = 2 ^ (4 + k) := by rw [pow_add]
      _ ≤ 2 ^ 32 := Nat.pow_le_pow_right (by omega) (by omega)
  simp only [packFields, BitVec.toNat_or, fieldWord_toNat]
  rw [sh _ 4 (by omega), sh _ 8 (by omega), sh _ 12 (by omega), sh _ 16 (by omega), sh _ 20 (by omega), sh _ 24 (by omega)]
  rw [key 4 _ _ (by omega), key 8 _ _ (by omega), key 12 _ _ (by omega), key 16 _ _ (by omega), key 20 _ _ (by omega),
    key 24 _ _ (by omega)]
  omega

section Packed
variable (op rd ra rb rn rx ry : Fin 16)

theorem fieldOP_pack : fieldOP (packFields op rd ra rb rn rx ry) = op := by
  apply Fin.ext; rw [fieldOP, nibble_val, packFields_toNat]; omega

theorem fieldRD_pack : fieldRD (packFields op rd ra rb rn rx ry) = rd := by
  apply Fin.ext; rw [fieldRD, nibble_val, packFields_toNat]; omega

theorem fieldRA_pack : fieldRA (packFields op rd ra rb rn rx ry) = ra := by
  apply Fin.ext; rw [fieldRA, nibble_val, packFields_toNat]; omega

theorem fieldRB_pack : fieldRB (packFields op rd ra rb rn rx ry) = rb := by
  apply Fin.ext; rw [fieldRB, nibble_val, packFields_toNat]; omega

theorem fieldRN_pack : fieldRN (packFields op rd ra rb rn rx ry) = rn := by
  apply Fin.ext; rw [fieldRN, nibble_val, packFields_toNat]; omega

theorem fieldRX_pack : fieldRX (packFields op rd ra rb rn rx ry) = rx := by
  apply Fin.ext; rw [fieldRX, nibble_val, packFields_toNat]; omega

theorem fieldRY_pack : fieldRY (packFields op rd ra rb rn rx ry) = ry := by
  apply Fin.ext; rw [fieldRY, nibble_val, packFields_toNat]; omega

theorem fieldRSV_pack : fieldRSV (packFields op rd ra rb rn rx ry) = 0 := by
  apply Fin.ext; rw [fieldRSV, nibble_val, packFields_toNat]; simp; omega

end Packed

/-- The bits the row mask keeps: OP and RSV (R74). -/
theorem and_rowMask (w : Word) : w &&& rowMask = fieldWord (fieldOP w) ||| fieldWord (fieldRSV w) <<< 28 := by
  apply BitVec.eq_of_getLsbD_eq
  intro i hi
  simp only [fieldOP, fieldRSV, fieldWord_nibble, rowMask]
  interval_cases i <;> simp

/-- A word is matched by a row exactly when RSV is 0 and OP is the row's opcode (R74). -/
theorem and_rowMask_eq_match (w : Word) (op : Fin 16) :
    w &&& rowMask = rowMatch op ↔ fieldRSV w = 0 ∧ fieldOP w = op := by
  rw [and_rowMask, rowMatch]
  have hor : (fieldWord (fieldOP w) ||| fieldWord (fieldRSV w) <<< 28).toNat =
      (fieldOP w).val + (fieldRSV w).val * 2 ^ 28 := by
    have h1 := (fieldOP w).isLt
    have h2 := (fieldRSV w).isLt
    rw [BitVec.toNat_or, BitVec.toNat_shiftLeft, fieldWord_toNat, fieldWord_toNat, Nat.shiftLeft_eq,
      Nat.mod_eq_of_lt (by omega), ← Nat.shiftLeft_eq, Nat.or_comm,
      ← Nat.shiftLeft_add_eq_or_of_lt (by omega), Nat.shiftLeft_eq, Nat.add_comm]
  constructor
  · intro h
    have := congrArg BitVec.toNat h
    rw [hor, fieldWord_toNat] at this
    have h1 := (fieldOP w).isLt
    have h2 := op.isLt
    exact ⟨Fin.ext (by simp; omega), Fin.ext (by omega)⟩
  · rintro ⟨h, rfl⟩
    apply BitVec.eq_of_toNat_eq
    rw [hor, h, fieldWord_toNat]; simp

end Sys2Proof
end

