-- ==== Sys2Proof/Laws/PerInstr.lean ====
section
/-!
SUPPORT. Facts about every command as syntax, one lemma per constructor.
-/

namespace Sys2Proof.Laws

/-- The word of a command is matched by the row of its opcode, with the mask of R74. -/
def EncodeMatchesRow.Statement (i : Instr) : Prop := encode i &&& rowMask = rowMatch i.opcode

namespace EncodeMatchesRow

theorem of_pack (op rd ra rb rn rx ry : Fin 16) : packFields op rd ra rb rn rx ry &&& rowMask = rowMatch op :=
  (and_rowMask_eq_match _ _).2 ⟨fieldRSV_pack .., fieldOP_pack ..⟩

theorem nop : Statement .nop := of_pack ..
theorem modred (d a n : Reg) : Statement (.modred d a n) := of_pack ..
theorem modsub (d a b n : Reg) : Statement (.modsub d a b n) := of_pack ..
theorem modmul (d a b n : Reg) : Statement (.modmul d a b n) := of_pack ..
theorem montmul (d a b n : Reg) : Statement (.montmul d a b n) := of_pack ..
theorem tomont (d a n : Reg) : Statement (.tomont d a n) := of_pack ..
theorem frommont (d a n : Reg) : Statement (.frommont d a n) := of_pack ..
theorem modexp (d a b n : Reg) : Statement (.modexp d a b n) := of_pack ..
theorem crtcomb (d a b n x y : Reg) : Statement (.crtcomb d a b n x y) := of_pack ..
theorem crtexp (d a b n x : Reg) : Statement (.crtexp d a b n x) := of_pack ..

end EncodeMatchesRow

end Sys2Proof.Laws
end

