-- ==== Sys2Proof/Tests/Slice0.lean ====
section
/-!
SUPPORT. Tests of the model, their expected results from 95_test_vectors.md or worked out by hand from the rule named, and for each
statement with hypotheses a witness that something meets them.
-/

-- The theorems below are evaluated one after another: side by side, each would hold a thread with a large stack.
set_option Elab.async false

namespace Sys2Proof.Tests

open Sys2Proof.Machine Sys2Proof.Claims

/-! ### Small states and short readings of them -/

/-- The reset state with some operand registers written. -/
def mk (ws : List (Reg × Nat)) : State := ws.foldl (fun s p => s.setX p.1 p.2) State.reset

/-- A register and the error code after an outcome. -/
def ended (r : Reg) : Host.Outcome State Fault Refusal → Option (Nat × Option CmdError)
  | .next t => some (t.x r, t.errcode)
  | _ => none

/-- What the command word `w` leaves in register `r` and in ERRCODE, by one step. -/
def ran (ws : List (Reg × Nat)) (w : Nat) (r : Reg) : Option (Nat × Option CmdError) :=
  ended r (step ((mk ws).withFetchWord 32 w))

/-- STATUS, IRQSTAT and CMD after an outcome. -/
def csrs : Host.Outcome State Fault Refusal → Option (Word × Word × Word)
  | .next t => some (t.statusWord, t.irqstatWord, t.cmd)
  | _ => none

/-- The port's last answer after an outcome. -/
def answered : Host.Outcome State Fault Refusal → Option Response
  | .next t => t.hostLog.head?
  | _ => none

/-- `s` with one bus access to come. -/
def then1 (s : State) (a : Access) : State := { s with agenda := [.host a] }

/-- A state with the command `w` in flight. -/
def busyWith (ws : List (Reg × Nat)) (w : Word) : State := (mk ws).accept w

/-- The modulus n, the primes and the exponents of key K1 (95_test_vectors.md). -/
def n1 : Nat := 2147713027
def d1 : Nat := 378990833

/-! ### Encoding (95_test_vectors.md, V-ENC and the assembler examples) -/

theorem test_decode_nop : decodeTableWord 32 0x0FFFFFF0 = some .nop := by decide +kernel
theorem test_decode_modred : decodeTableWord 32 0x00020031 = some (.modred 3 0 2) := by decide +kernel
theorem test_decode_modsub : decodeTableWord 32 0x00021032 = some (.modsub 3 0 1 2) := by decide +kernel
theorem test_decode_modmul : decodeTableWord 32 0x00021033 = some (.modmul 3 0 1 2) := by decide +kernel
theorem test_decode_montmul : decodeTableWord 32 0x00023344 = some (.montmul 4 3 3 2) := by decide +kernel
theorem test_decode_tomont : decodeTableWord 32 0x00020035 = some (.tomont 3 0 2) := by decide +kernel
theorem test_decode_frommont : decodeTableWord 32 0x00020036 = some (.frommont 3 0 2) := by decide +kernel
theorem test_decode_modexp : decodeTableWord 32 0x0FFFFFF7 = some (.modexp 15 15 15 15) := by decide +kernel
theorem test_decode_crtcomb : decodeTableWord 32 0x05421038 = some (.crtcomb 3 0 1 2 4 5) := by decide +kernel
theorem test_decode_crtexp : decodeTableWord 32 0x00543689 = some (.crtexp 8 6 3 4 5) := by decide +kernel
theorem test_decode_illegal :
    [0x0002103A, 0x0002103F, 0x10021037, 0xF0000000].map (decodeTableWord 32) = [none, none, none, none] := by decide +kernel

theorem test_encode_tomont : encode (.tomont 3 0 2) = 0x00020035#32 := by decide +kernel
theorem test_encode_crtcomb : encode (.crtcomb 3 0 1 2 4 5) = 0x05421038#32 := by decide +kernel

/-- The assembler on text: case, blanks and the comment (R81). -/
theorem test_assemble_modexp : assemble "  modexp R3, r0 ,r1, r2 ; c".toList = .command (.modexp 3 0 1 2) := by decide +kernel
theorem test_assemble_nop : assemble "NOP".toList = .command .nop := by decide +kernel
theorem test_assemble_comment : assemble "; only a comment".toList = .blank := by decide +kernel
theorem test_assemble_decryptcrt :
    assemble "DECRYPTCRT r8, r6, r3, r4, r5".toList = .command (.crtexp 8 6 3 4 5) := by decide +kernel
theorem test_assemble_fermat : assemble "FERMAT r2, r0, r1".toList = .command (.modexp 2 0 1 1) := by decide +kernel
theorem test_assemble_count : assemble "MODRED r3, r0".toList = .error .operandCount := by decide +kernel
theorem test_assemble_register : assemble "MODRED r3, r16, r0".toList = .error .badRegister := by decide +kernel

/-! ### What WellFormed refuses, one ill-formed term for each check -/

theorem test_wf_access : Access.wellFormed .reference (.read 0x1000 4) = true := by decide
theorem test_wf_access_size : Access.wellFormed .reference (.read 0x1000 1) = false := by decide
theorem test_wf_access_align : Access.wellFormed .reference (.read 0x1002 4) = false := by decide
theorem test_wf_access_range : Access.wellFormed .reference (.write 0x4000 4 0) = false := by decide
theorem test_wf_wr : HostOp.wellFormed .reference (.wr 0 (2 ^ 64 - 1)) = true := by decide
theorem test_wf_wr_wide : HostOp.wellFormed .reference (.wr 0 (2 ^ 64)) = false := by decide
theorem test_wf_memRead : HostOp.wellFormed .reference (.memRead 0x3FFE) = false := by decide
theorem test_wf_memWrite : HostOp.wellFormed .reference (.memWrite 0x4000 0) = false := by decide
theorem test_wf_line : AsmLine.wellFormed ⟨"MODRED".toList, [3, 0, 2]⟩ = true := by decide +kernel
theorem test_wf_line_mnemonic : AsmLine.wellFormed ⟨"MODINV".toList, [3, 0, 2]⟩ = false := by decide +kernel
theorem test_wf_line_register : AsmLine.wellFormed ⟨"MODRED".toList, [16, 0, 2]⟩ = false := by decide +kernel
theorem test_wf_line_count : AsmLine.wellFormed ⟨"MODRED".toList, [3, 0]⟩ = false := by decide +kernel

/-! ### The commands (95_test_vectors.md, section L2) -/

/-- V-NOP-2 and its STATUS. -/
theorem test_nop : csrs (step ((mk [(3, 99)]).withFetchWord 32 0x0FFFFFF0)) = some (0x00000000#32, 0x00000001#32, 0x0FFFFFF0#32) := by
  decide +kernel
/-- V-NOP-3. -/
theorem test_illegal : csrs (step ((mk [(3, 99)]).withFetchWord 32 0x10000000)) = some (0x00000102#32, 0x00000001#32, 0x10000000#32) := by
  decide +kernel
/-- V-MODRED-7. -/
theorem test_modred_alias : ran [(0, 100), (2, 7)] 0x00020001 0 = some (2, none) := by decide +kernel
/-- V-MODRED-6. -/
theorem test_modred_zmod : ran [(0, 5), (3, 99)] 0x00020031 3 = some (99, some .zmod) := by decide +kernel
/-- V-MODSUB-1. -/
theorem test_modsub_negative : ran [(0, 3), (1, 10), (2, 11)] 0x00021032 3 = some (4, none) := by decide +kernel
/-- V-MODSUB-4. -/
theorem test_modsub_wide : ran [(1, 2 ^ 64 - 1), (2, n1)] 0x00021032 3 = some (16974083, none) := by decide +kernel
/-- V-MODMUL-2. -/
theorem test_modmul_wide : ran [(0, 2 ^ 64 - 1), (1, 2 ^ 64 - 1), (2, 2 ^ 63 + 1)] 0x00021033 3 = some (9, none) := by decide +kernel
/-- V-MODMUL-7. -/
theorem test_modmul_even : ran [(0, 7), (1, 9), (2, 16)] 0x00021033 3 = some (15, none) := by decide +kernel
/-- V-MONTMUL-1. -/
theorem test_montmul : ran [(0, 12345), (1, 67890), (2, n1)] 0x00021034 3 = some (1663999324, none) := by decide +kernel
/-- V-MONTMUL-9. -/
theorem test_montmul_evenmod : ran [(0, 5), (1, 7), (2, 16), (3, 99)] 0x00021034 3 = some (99, some .evenmod) := by decide +kernel
/-- V-TOMONT-1. -/
theorem test_tomont : ran [(0, 42), (2, n1)] 0x00020035 3 = some (1434801583, none) := by decide +kernel
/-- V-TOMONT-8: ZMOD, not EVENMOD. -/
theorem test_tomont_zmod : ran [(0, 42)] 0x00020035 3 = some (0, some .zmod) := by decide +kernel
/-- V-FROMMONT-2. -/
theorem test_frommont : ran [(0, 1434801583), (2, n1)] 0x00020036 3 = some (42, none) := by decide +kernel
/-- V-FROMMONT-4. -/
theorem test_frommont_wide : ran [(0, 2 ^ 64 - 1), (2, n1)] 0x00020036 3 = some (1459967749, none) := by decide +kernel
/-- V-MODEXP-10. -/
theorem test_modexp_long : ran [(0, 2), (1, 2 ^ 64 - 1), (2, n1)] 0x00021037 3 = some (2012084206, none) := by decide +kernel
/-- V-MODEXP-2: 0^0 = 1. -/
theorem test_modexp_zero : ran [(2, n1)] 0x00021037 3 = some (1, none) := by decide +kernel
/-- V-CRTCOMB-2: cP < cQ. -/
theorem test_crtcomb : ran [(0, 5), (1, 32766), (2, 65537), (4, 32771), (5, 52430)] 0x05421038 3 = some (131079, none) := by
  decide +kernel
/-- V-CRTCOMB-9. -/
theorem test_crtcomb_ovf :
    ran [(0, 5), (2, 2 ^ 40 + 15), (3, 99), (4, 2 ^ 40 + 1), (5, 2 ^ 39)] 0x05421038 3 = some (99, some .ovf) := by decide +kernel
/-- V-CRTEXP-1. -/
theorem test_crtexp : ran [(0, 1229748469), (1, d1), (2, 65537), (4, 32771)] 0x00421039 3 = some (42, none) := by decide +kernel
/-- V-CRTEXP-15: NOINV before OVF. -/
theorem test_crtexp_noinv : ran [(0, 5), (1, d1), (2, 2 ^ 61 - 1), (4, 2 ^ 61 - 1)] 0x00421039 3 = some (0, some .noinv) := by
  decide +kernel

/-! ### The bus and the resets (95_test_vectors.md, V-BUS and V-RST) -/

/-- V-BUS-1 and V-BUS-2. -/
theorem test_bus_id : answered (step (then1 State.reset (.read 0x000 4))) = some (.okayRead 0x4D435254#32) := by decide +kernel
theorem test_bus_param : answered (step (then1 State.reset (.read 0x004 4))) = some (.okayRead 0x01100002#32) := by decide +kernel
/-- V-BUS-3: the upper word of r2. -/
theorem test_bus_read_word : answered (step (then1 (mk [(2, 2 ^ 32 * 7 + 5)]) (.read 0x1404 4))) = some (.okayRead 7#32) := by
  decide +kernel
/-- V-BUS-5. -/
theorem test_bus_write_word : ended 0 (step (then1 (mk [(0, 42)]) (.write 0x1000 4 0xFFFFFFFF#32))) = some (4294967295, none) := by
  decide +kernel
/-- V-BUS-4. -/
theorem test_bus_write_beyond : ended 2 (step (then1 (mk [(2, 42)]) (.write 0x1408 4 0x12345678#32))) = some (42, none) := by
  decide +kernel
/-- V-BUS-7: the fault, and the answer of the port. -/
theorem test_bus_error : step (then1 State.reset (.read 0x1002 4)) = .fault (.busError (.read 0x1002 4)) := by rfl
theorem test_bus_error_data : State.reset.respond (.read 0x1000 1) = .error 0x00000000#32 := by decide +kernel
/-- V-BUS-13: STATUS = 5 while busy with OVR. -/
theorem test_bus_overrun :
    csrs (step (then1 (busyWith [(0, 42)] 0x00021037#32) (.write 0x008 4 0x00020041#32))) =
      some (0x00000005#32, 0x00000000#32, 0x00021037#32) := by decide +kernel
/-- V-BUS-10: writing 0 leaves DONE, writing 1 clears it. -/
theorem test_bus_w1c :
    ([0x00000000#32, 0xFFFFFFFF#32].map fun v => (csrs (step (then1 (State.reset.finish none) (.write 0x014 4 v)))).map (·.2.1)) =
      [some 0x00000001#32, some 0x00000000#32] := by decide +kernel
/-- V-RST-2: a soft reset in the middle of a command. -/
theorem test_soft_reset :
    csrs (step (then1 (busyWith [(3, 7)] 0x00021037#32) (.write 0x018 4 0x00000001#32))) =
      some (0x00000000#32, 0x00000000#32, 0x00000000#32) := by decide +kernel
/-- V-RST-1: a hardware reset in the middle of a command. -/
theorem test_hard_reset :
    csrs (step { busyWith [(3, 7)] 0x00021037#32 with agenda := [.hardReset] }) =
      some (0x00000000#32, 0x00000000#32, 0x00000000#32) := by decide +kernel
/-- R84's example: `WR r0, 42`. -/
theorem test_events_wr :
    (HostOp.wr 0 42).events .reference = [.host (.write 0x1000 4 0x2A#32), .host (.write 0x1004 4 0x00000000#32)] := by
  decide +kernel
/-- RDR puts the words together again (R84). -/
theorem test_rdr : assembleWords [5#32, 7#32] = 2 ^ 32 * 7 + 5 := by decide +kernel
/-- The hazard of R186, and U1's use of an unwritten register. -/
theorem test_hazard : (then1 (busyWith [] 0#32) (.write 0x1000 4 0#32)).hazard = some .operandWrite := by decide +kernel
theorem test_unwritten : (busyWith [(0, 5)] 0x00020031#32).usesUnwritten = true ∧ (busyWith [] 0x0FFFFFF0#32).usesUnwritten = false := by
  decide +kernel

/-! ### Witnesses: for every statement with hypotheses, a state and operands that meet them, clause by clause

Each theorem shows the hypotheses of the statement it is named after, at the values where its clauses meet; `ended` and `csrs` show that
the outcome is a next state where the hypothesis says so. -/

/-- An idle state: A = 5, B = 7, r2 = n, r4 = x, r5 = y. -/
def idle (n x y : Nat) : State := mk [(0, 5), (1, 7), (2, n), (4, x), (5, y)]

/-- The same with the word in flight. -/
def flying (n x y : Nat) (w : Word) : State := (idle n x y).accept w

/-- `s` with these events to come. -/
def thenAll (s : State) (es : List Event) : State := { s with agenda := es }

/-- Whether an outcome is a next state. -/
def isNext : Host.Outcome State Fault Refusal → Bool
  | .next _ => true
  | _ => false

theorem test_meets_EncodeOfDecodeClearsUnusedFields : decode 0x0FFFFFF1#32 = .ok (.modred 15 15 15) := by decide +kernel

theorem test_meets_WordSelectsItsOpcodeRow :
    (idle 7 0 0).lat = none ∧ (0x10000000#32 : Word).toNat / 2 ^ 28 ≠ 0 ∧ 0xA ≤ (0x0000000A#32 : Word).toNat % 16 ∧
      ¬ 0xA ≤ (0x00000009#32 : Word).toNat % 16 := by decide +kernel

theorem test_meets_UnusedFieldsAreIgnored :
    decode 0x0FF2F031#32 = .ok (.modred 3 0 2) ∧
      0x0FF2F031#32 &&& (Instr.modred 3 0 2).usedMask = 0x00020031#32 &&& (Instr.modred 3 0 2).usedMask := by decide +kernel

theorem test_meets_NopOnlyCompletes :
    (idle 0 0 0).lat = none ∧ 0x0FFFFFF0#32 &&& 0xF000000F#32 = 0x00000000#32 ∧ fieldRSV 0x10000000#32 ≠ 0 := by decide +kernel

theorem test_meets_ModredWritesTheRemainder :
    (idle 1 0 0).lat = none ∧ 0x00020031#32 &&& 0xF000000F#32 = 0x00000001#32 ∧ (3 : Reg) = fieldRD 0x00020031#32 ∧
      (0 : Reg) = fieldRA 0x00020031#32 ∧ (2 : Reg) = fieldRN 0x00020031#32 ∧ (idle 1 0 0).x 2 ≠ 0 ∧ (idle 0 0 0).x 2 = 0 := by
  decide +kernel

theorem test_meets_ModsubWritesTheNormalisedDifference :
    (idle 1 0 0).lat = none ∧ 0x00021032#32 &&& 0xF000000F#32 = 0x00000002#32 ∧ (3 : Reg) = fieldRD 0x00021032#32 ∧
      (0 : Reg) = fieldRA 0x00021032#32 ∧ (1 : Reg) = fieldRB 0x00021032#32 ∧ (2 : Reg) = fieldRN 0x00021032#32 ∧
      (idle 1 0 0).x 2 ≠ 0 ∧ (idle 0 0 0).x 2 = 0 := by decide +kernel

theorem test_meets_ModmulWritesTheProductRemainder :
    (idle 1 0 0).lat = none ∧ 0x00021033#32 &&& 0xF000000F#32 = 0x00000003#32 ∧ (3 : Reg) = fieldRD 0x00021033#32 ∧
      (0 : Reg) = fieldRA 0x00021033#32 ∧ (1 : Reg) = fieldRB 0x00021033#32 ∧ (2 : Reg) = fieldRN 0x00021033#32 ∧
      (idle 1 0 0).x 2 ≠ 0 ∧ (idle 0 0 0).x 2 = 0 := by decide +kernel

theorem test_meets_MontmulWritesTheMontgomeryProduct :
    (idle 1 0 0).lat = none ∧ 0x00021034#32 &&& 0xF000000F#32 = 0x00000004#32 ∧ (3 : Reg) = fieldRD 0x00021034#32 ∧
      (0 : Reg) = fieldRA 0x00021034#32 ∧ (1 : Reg) = fieldRB 0x00021034#32 ∧ (2 : Reg) = fieldRN 0x00021034#32 ∧
      (idle 1 0 0).x 2 % 2 = 1 ∧ (idle 0 0 0).x 2 = 0 ∧ (idle 2 0 0).x 2 ≠ 0 ∧ (idle 2 0 0).x 2 % 2 = 0 := by decide +kernel

theorem test_meets_TomontWritesTheMontgomeryForm :
    (idle 1 0 0).lat = none ∧ 0x00020035#32 &&& 0xF000000F#32 = 0x00000005#32 ∧ (3 : Reg) = fieldRD 0x00020035#32 ∧
      (0 : Reg) = fieldRA 0x00020035#32 ∧ (2 : Reg) = fieldRN 0x00020035#32 ∧
      (idle 1 0 0).x 2 % 2 = 1 ∧ (idle 0 0 0).x 2 = 0 ∧ (idle 2 0 0).x 2 ≠ 0 ∧ (idle 2 0 0).x 2 % 2 = 0 := by decide +kernel

theorem test_meets_FrommontWritesTheValueOfTheForm :
    (idle 1 0 0).lat = none ∧ 0x00020036#32 &&& 0xF000000F#32 = 0x00000006#32 ∧ (3 : Reg) = fieldRD 0x00020036#32 ∧
      (0 : Reg) = fieldRA 0x00020036#32 ∧ (2 : Reg) = fieldRN 0x00020036#32 ∧
      (idle 1 0 0).x 2 % 2 = 1 ∧ (idle 0 0 0).x 2 = 0 ∧ (idle 2 0 0).x 2 ≠ 0 ∧ (idle 2 0 0).x 2 % 2 = 0 := by decide +kernel

theorem test_meets_ModexpWritesTheExactPower :
    (idle 1 0 0).lat = none ∧ 0x00021037#32 &&& 0xF000000F#32 = 0x00000007#32 ∧ (3 : Reg) = fieldRD 0x00021037#32 ∧
      (0 : Reg) = fieldRA 0x00021037#32 ∧ (1 : Reg) = fieldRB 0x00021037#32 ∧ (2 : Reg) = fieldRN 0x00021037#32 ∧
      (idle 1 0 0).x 2 ≠ 0 ∧ (idle 0 0 0).x 2 = 0 := by decide +kernel

/-- Both sides of the width check too: with p = 7, q = 2^61 and qInv = 1 the value is 7 + 5 * 2^61 (it fits); with q = 2^62, 7 + 5 * 2^62. -/
theorem test_meets_CrtcombWritesTheRecombination :
    (idle 1 0 0).lat = none ∧ 0x05421038#32 &&& 0xF000000F#32 = 0x00000008#32 ∧ (3 : Reg) = fieldRD 0x05421038#32 ∧
      (0 : Reg) = fieldRA 0x05421038#32 ∧ (1 : Reg) = fieldRB 0x05421038#32 ∧ (2 : Reg) = fieldRN 0x05421038#32 ∧
      (4 : Reg) = fieldRX 0x05421038#32 ∧ (5 : Reg) = fieldRY 0x05421038#32 ∧
      (idle 0 0 0).x 2 = 0 ∧ (idle 1 0 0).x 2 ≠ 0 ∧
      recombined 5 7 7 (2 ^ 61) 1 = 7 + 5 * 2 ^ 61 ∧ 7 + 5 * 2 ^ 61 < 2 ^ (idle 7 (2 ^ 61) 1).cfg.width ∧
      recombined 5 7 7 (2 ^ 62) 1 = 7 + 5 * 2 ^ 62 ∧ 2 ^ (idle 7 (2 ^ 62) 1).cfg.width ≤ 7 + 5 * 2 ^ 62 := by decide +kernel

/-- p = 1 and q = 1 fall under ZMOD, p = q = 2 under NOINV, p = 2 with q = 3 under the result, V-CRTEXP-12 under OVF. -/
theorem test_meets_CrtexpComputesTheFiveSteps :
    (idle 1 0 0).lat = none ∧ 0x00421039#32 &&& 0xF000000F#32 = 0x00000009#32 ∧ (3 : Reg) = fieldRD 0x00421039#32 ∧
      (0 : Reg) = fieldRA 0x00421039#32 ∧ (1 : Reg) = fieldRB 0x00421039#32 ∧ (2 : Reg) = fieldRN 0x00421039#32 ∧
      (4 : Reg) = fieldRX 0x00421039#32 ∧ (idle 1 2 0).x 2 ≤ 1 ∧ (idle 2 1 0).x 4 ≤ 1 ∧
      (1 < (idle 2 2 0).x 2 ∧ 1 < (idle 2 2 0).x 4 ∧ Nat.gcd ((idle 2 2 0).x 4) ((idle 2 2 0).x 2) ≠ 1) ∧
      (1 < (idle 2 3 0).x 2 ∧ 1 < (idle 2 3 0).x 4 ∧ Nat.gcd ((idle 2 3 0).x 4) ((idle 2 3 0).x 2) = 1) ∧
      ran [(0, 2 ^ 64 - 1), (1, 3), (2, 2 ^ 61 - 1), (4, 2 ^ 31 - 1)] 0x00421039 3 = some (0, some .ovf) := by decide +kernel

theorem test_meets_EngineTurnIsOneCompletion :
    (flying 7 0 0 0x00020031#32).lat = some (latchOf 0x00020031#32 (idle 7 0 0)) ∧
      decode (latchOf 0x0002103A#32 (idle 7 0 0)).word = .error .reservedOpcode := by decide +kernel

theorem test_meets_EveryCommandCompletes : (flying 7 0 0 0#32).busy = true ∧ (idle 7 0 0).busy = false := by decide +kernel

/-- Two latches with other destinations and other histories. -/
theorem test_meets_OutcomeDependsOnLatchedOperandsOnly :
    ∃ l l', (flying 7 0 0 0x00020031#32).lat = some l ∧ ((idle 7 0 0).setX 9 1 |>.accept 0x00020041#32).lat = some l' ∧
      l.d ≠ l'.d ∧ l.a = l'.a ∧ l.b = l'.b ∧ l.n = l'.n ∧ l.x = l'.x ∧ l.y = l'.y := ⟨_, _, rfl, rfl, by decide +kernel⟩

/-- The two states differ in every register that MODRED does not read. -/
theorem test_meets_CommandReadsOnlyItsSources :
    decode 0x00021031#32 = .ok (.modred 3 0 2) ∧ (∀ r ∈ (Instr.modred 3 0 2).sources, (idle 7 1 1).x r = ((idle 7 2 2).setX 1 8).x r) ∧
      (idle 7 1 1).x 1 ≠ ((idle 7 2 2).setX 1 8).x 1 := by decide +kernel

theorem test_meets_CompletionFrame_nop : ∃ t, exec .nop (flying 7 0 0 0x00000000#32) = .next t := ⟨_, rfl⟩
theorem test_meets_CompletionFrame :
    ∃ l t, (flying 7 0 0 0x00020031#32).lat = some l ∧ exec (.modred 3 0 2) (flying 7 0 0 0x00020031#32) = .next t ∧ (4 : Reg) ≠ l.d :=
  ⟨_, _, rfl, rfl, by decide +kernel⟩

theorem test_meets_FailedCommandsWriteNoRegister :
    ∃ l t, (flying 0 0 0 0x00020031#32).lat = some l ∧ engineStep (flying 0 0 0 0x00020031#32) = .next t ∧ t.errcode ≠ none :=
  ⟨_, _, rfl, rfl, by decide +kernel⟩

/-- The two sides of each cause, for every command that has it. -/
theorem test_meets_ZmodExactlyForItsCauses :
    ([0x00020031#32, 0x00021032#32, 0x00021033#32, 0x00021034#32, 0x00020035#32, 0x00020036#32, 0x00021037#32, 0x05421038#32].map fun w =>
        (ended 3 (engineStep (flying 0 3 0 w)), ended 3 (engineStep (flying 1 3 0 w))).map (·.map (·.2)) (·.map (·.2))) =
      List.replicate 8 (some (some .zmod), some none) ∧
    [ended 3 (engineStep (flying 1 3 0 0x00421039#32)), ended 3 (engineStep (flying 3 1 0 0x00421039#32)),
      ended 3 (engineStep (flying 2 3 0 0x00421039#32))].map (·.map (·.2)) = [some (some .zmod), some (some .zmod), some none] := by
  decide +kernel

theorem test_meets_EvenmodExactlyForEvenMontgomeryModuli :
    ([0x00021034#32, 0x00020035#32, 0x00020036#32].map fun w =>
        (ended 3 (engineStep (flying 2 3 0 w)), ended 3 (engineStep (flying 1 3 0 w))).map (·.map (·.2)) (·.map (·.2))) =
      List.replicate 3 (some (some .evenmod), some none) := by decide +kernel

theorem test_meets_NoinvExactlyForCommonFactors :
    [ended 3 (engineStep (flying 2 2 0 0x00421039#32)), ended 3 (engineStep (flying 2 3 0 0x00421039#32))].map (·.map (·.2)) =
      [some (some .noinv), some none] := by decide +kernel

theorem test_meets_OvfExactlyForTooWideCrtValues :
    [ended 3 (engineStep (flying 7 (2 ^ 62) 1 0x05421038#32)), ended 3 (engineStep (flying 7 (2 ^ 61) 1 0x05421038#32))].map (·.map (·.2)) =
      [some (some .ovf), some none] := by decide +kernel

theorem test_meets_ResultsFitTheirRange :
    ∃ l t, (flying (2 ^ 64 - 1) 0 0 0x00021033#32).lat = some l ∧ l.n < 2 ^ (flying (2 ^ 64 - 1) 0 0 0x00021033#32).cfg.width ∧
      exec (.modmul 3 0 1 2) (flying (2 ^ 64 - 1) 0 0 0x00021033#32) = .next t ∧ t.errcode = none ∧ Instr.modmul 3 0 1 2 ≠ .nop :=
  ⟨_, _, rfl, by decide +kernel, rfl, by decide +kernel, by decide⟩

/-- The engine's turn by name, and the engine's turn of an empty agenda. -/
theorem test_meets_StepRunsTheDecodedCommand :
    engineNext (thenAll (flying 7 0 0 0x00020031#32) [.engine, .hardReset]) [.hardReset] ∧ engineNext (flying 7 0 0 0x00020031#32) [] ∧
      (∃ l, (flying 7 0 0 0x00020031#32).lat = some l ∧ decode l.word = .ok (.modred 3 0 2)) :=
  ⟨.inl rfl, .inr ⟨rfl, rfl⟩, _, rfl, by decide +kernel⟩

theorem test_meets_PlacedCommandIsRunNext :
    decodeTableWord 32 0x00020031 = some (.modred 3 0 2) ∧ decodeTableWord 24 0x00020031 = some (.modred 3 0 2) := by decide +kernel

/-- A state with a command in flight that has the invariant, and its step. -/
theorem test_meets_EveryStepKeepsTheInvariant :
    (flying 7 0 0 0x00020031#32).Inv ∧ isNext (step (flying 7 0 0 0x00020031#32)) = true := by
  refine ⟨⟨?_, ?_, ?_, rfl, fun _ => ⟨rfl, rfl⟩⟩, by decide +kernel⟩
  · unfold State.regsInRange; decide +kernel
  · rintro l hl; cases hl; rfl
  · rintro l hl; cases hl; rfl

/-- Each of the three events: a host write, a completion, and (from a value no register holds in a run) a hardware reset. -/
theorem test_meets_RegistersChangeOnlyByTheseEvents :
    (∃ t, step (then1 (idle 7 0 0) (.write 0x1000 4 9#32)) = .next t ∧ t.x 0 ≠ (idle 7 0 0).x 0) ∧
      (∃ t, step (flying 7 0 0 0x00020031#32) = .next t ∧ t.x 3 ≠ (idle 7 0 0).x 3) ∧
      (∃ t, step (thenAll (idle (2 ^ 64) 0 0) [.hardReset]) = .next t ∧ t.x 2 ≠ (idle (2 ^ 64) 0 0).x 2) := by
  refine ⟨⟨_, rfl, by decide +kernel⟩, ⟨_, rfl, by decide +kernel⟩, ⟨_, rfl, ?_⟩⟩
  rw [State.x_hardReset]
  exact (State.drawnOperand_lt _ 2).ne

/-- A register is marked by a host write and by a completion, also where the value written is the one already held; a marked one stays
so. -/
theorem test_meets_WrittenMarksFollowTheWrites :
    (∃ t, step (then1 (idle 7 0 0) (.write 0x1E00 4 0#32)) = .next t ∧ t.isWritten 7 = true ∧ t.x 7 = (idle 7 0 0).x 7 ∧
      (idle 7 0 0).isWritten 7 = false) ∧
    (∃ t, step (flying 5 0 0 0x00020031#32) = .next t ∧ t.isWritten 3 = true ∧ t.x 3 = (idle 5 0 0).x 3 ∧
      (idle 5 0 0).isWritten 3 = false ∧ (idle 5 0 0).isWritten 0 = true ∧ t.errcode = none) ∧
    (∃ t, step (flying 7 0 0 0x00020031#32) = .next t ∧ t.x 3 ≠ (idle 7 0 0).x 3) :=
  ⟨⟨_, rfl, by decide +kernel⟩, ⟨_, rfl, by decide +kernel⟩, ⟨_, rfl, by decide +kernel⟩⟩

/-- The form of the host write that marks, and the completion that does. -/
theorem test_meets_WrittenMarksFollowTheWrites_clauses :
    nextWrites (then1 (idle 7 0 0) (.write 0x1E04 4 0#32)) (0x1000 + 0x200 * (7 : Reg).val + 4 * 1) 0#32 [] ∧ 1 < (idle 7 0 0).cfg.nw ∧
      engineNext (flying 5 0 0 0x00020031#32) [] ∧
      (∃ l, (flying 5 0 0 0x00020031#32).lat = some l ∧ l.d = 3 ∧ decode l.word = .ok (.modred 3 0 2)) :=
  ⟨rfl, by decide, .inr ⟨rfl, rfl⟩, _, rfl, by decide +kernel⟩

/-- One next state for each form of the agenda that the rules on BUSY, OVR, DONE and ERRCODE tell apart, idle and busy. -/
def eventForms : List (List Event) :=
  [[], [.engine], [.hardReset], [.host (.read 0x1000 4)], [.host (.write 0x008 4 0#32)], [.host (.write 0x010 4 1#32)],
    [.host (.write 0x014 4 1#32)], [.host (.write 0x018 4 1#32)], [.host (.write 0x018 4 2#32)], [.host (.write 0x1000 4 0#32)],
    [.host (.write 0x2FFC 4 0#32)], [.host (.write 0x0FFC 4 0#32)], [.host (.write 0x3000 4 0#32)]]

theorem test_meets_BusyFollowsAcceptanceAndCompletion :
    (eventForms.all fun es => isNext (step (thenAll (idle 7 0 0) es)) && isNext (step (thenAll (flying 7 0 0 0#32) es))) = true := by
  decide +kernel
theorem test_meets_OvrIsTheStickyRecordOfDroppedWrites :
    (eventForms.map fun es => match step (thenAll (flying 7 0 0 0#32).setOvr es) with | .next t => t.ovr | _ => false) =
      [true, true, false, true, true, true, true, false, false, true, true, true, true] := by decide +kernel
/-- DONE is set by a completion alone, DONEIE set by the IRQEN write alone. -/
theorem test_meets_InterruptBitsFollowTheirRules :
    (eventForms.filter fun es => match step (thenAll (flying 7 0 0 0#32) es) with | .next t => t.done | _ => true) = [[], [.engine]] ∧
      (eventForms.filter fun es => match step (thenAll (flying 7 0 0 0#32) es) with | .next t => t.doneie | _ => true) =
        [[.host (.write 0x010 4 1#32)]] := by decide +kernel
theorem test_meets_ErrcodeIsOverwrittenOnlyByTheseEvents :
    (eventForms.map fun es => match step (thenAll ((idle 7 0 0).finish (some .ovf)) es) with | .next t => t.err | _ => false) =
      [true, true, false, true, false, true, true, false, true, true, true, true, true] := by decide +kernel

/-- At both ends of the block, and, for the draw, at the last word of the operand window of a busy block. -/
theorem test_meets_ReadsHaveNoSideEffects :
    nextReads (then1 (idle 7 0 0) (.read 0x3FFC 4)) 0x3FFC [] ∧ nextReads (then1 (idle 7 0 0) (.read 0x000 4)) 0x000 [] ∧
      nextReads (then1 (flying 7 0 0 0#32) (.read 0x2FFC 4)) 0x2FFC [] ∧ (flying 7 0 0 0#32).busy = true := ⟨rfl, rfl, rfl, rfl⟩

theorem test_meets_CmdWritesAcceptOrOverrun :
    nextWrites (then1 (idle 7 0 0) (.write 0x008 4 1#32)) 0x008 1#32 [] ∧ (then1 (idle 7 0 0) (.write 0x008 4 1#32)).busy = false ∧
      (then1 (flying 7 0 0 0#32) (.write 0x008 4 1#32)).busy = true ∧ nextReads (then1 (idle 7 0 0) (.read 0x008 4)) 0x008 [] :=
  ⟨rfl, rfl, rfl, rfl⟩

/-- Word NW-1 is inside the register, word NW beyond it; the last word of the last register is at 0x2FFC. -/
theorem test_meets_OperandReadsReturnTheWord :
    (1 < (idle 7 0 0).cfg.nw ∧ (idle 7 0 0).cfg.nw ≤ 2) ∧
      nextReads (then1 (idle 7 0 0) (.read 0x1404 4)) (0x1000 + 0x200 * (2 : Reg).val + 4 * 1) [] ∧
      nextReads (then1 (flying 7 0 0 0#32) (.read 0x2FFC 4)) (0x1000 + 0x200 * (15 : Reg).val + 4 * 127) [] ∧
      (idle 7 0 0).busy = false ∧ (flying 7 0 0 0#32).busy = true := ⟨by decide, rfl, rfl, rfl, rfl⟩
theorem test_meets_OperandWritesReplaceOneWord :
    (1 < (idle 7 0 0).cfg.nw ∧ (idle 7 0 0).cfg.nw ≤ 2) ∧
      nextWrites (then1 (idle 7 0 0) (.write 0x1404 4 9#32)) (0x1000 + 0x200 * (2 : Reg).val + 4 * 1) 9#32 [] ∧
      nextWrites (then1 (flying 7 0 0 0#32) (.write 0x2FFC 4 9#32)) (0x1000 + 0x200 * (15 : Reg).val + 4 * 127) 9#32 [] ∧
      (idle 7 0 0).busy = false ∧ (flying 7 0 0 0#32).busy = true := ⟨by decide, rfl, rfl, rfl, rfl⟩

theorem test_meets_WordsAreLittleEndianBytes : (3 : Nat) < 4 ∧ operandByte 0x0102030405060708 7 = 0x01#8 := by decide +kernel

theorem test_meets_ControlReadsReturnTheRegisters :
    nextReads (then1 (idle 7 0 0) (.read 0x00C 4)) 0x00C [] ∧ nextReads (then1 (idle 7 0 0) (.read 0x0FFC 4)) 0x0FFC [] ∧
      nextReads (then1 (idle 7 0 0) (.read 0x3000 4)) 0x3000 [] := ⟨rfl, rfl, rfl⟩
theorem test_meets_ControlWritesDoTheirEffect :
    nextWrites (then1 (idle 7 0 0) (.write 0x010 4 1#32)) 0x010 1#32 [] ∧ nextWrites (then1 (idle 7 0 0) (.write 0x014 4 1#32)) 0x014 1#32 [] ∧
      nextWrites (then1 (idle 7 0 0) (.write 0x018 4 2#32)) 0x018 2#32 [] ∧ (2#32 : Word).getLsbD 0 = false := ⟨rfl, rfl, rfl, rfl⟩
theorem test_meets_ReadOnlyAndReservedWritesAreIgnored :
    nextWrites (then1 (idle 7 0 0) (.write 0x00C 4 1#32)) 0x00C 1#32 [] ∧ nextWrites (then1 (idle 7 0 0) (.write 0x01C 4 1#32)) 0x01C 1#32 [] ∧
      nextWrites (then1 (idle 7 0 0) (.write 0x3FFC 4 1#32)) 0x3FFC 1#32 [] := ⟨rfl, rfl, rfl⟩
theorem test_meets_HardwareResetRestoresTheControlRegisters :
    (thenAll (flying 7 0 0 0#32) [.hardReset]).agenda = .hardReset :: [] := rfl
theorem test_meets_SoftResetKeepsTheOperandRegisters :
    nextWrites (then1 (flying 7 0 0 0#32) (.write 0x018 4 3#32)) 0x018 3#32 [] ∧ (3#32 : Word).getLsbD 0 = true := ⟨rfl, rfl⟩

/-- A busy host program that never gives the engine its turn. -/
theorem test_meets_CommandsInFlightEnd :
    (thenAll (flying 7 0 0 0#32) [.host (.read 0x00C 4)]).busy = true ∧
      ∀ a, .host a ∈ (thenAll (flying 7 0 0 0#32) [.host (.read 0x00C 4)]).agenda →
        a.defined (thenAll (flying 7 0 0 0#32) [.host (.read 0x00C 4)]).cfg = true := by
  refine ⟨rfl, fun a h => ?_⟩
  obtain rfl : a = .read 0x00C 4 := by simpa [thenAll] using h
  decide +kernel

theorem test_meets_IssueAndWaitDeliversTheResult :
    (thenAll (idle 7 0 0) (programEvents (idle 7 0 0).cfg [.cmd (.modred 3 0 2), .wait 2] ++ [.hardReset])).busy = false := rfl

/-- One state for each hazard, one without. -/
theorem test_meets_HazardsAreDroppedWritesAndDrawnReads :
    ([Access.write 0x1000 4 0#32, Access.write 0x008 4 0#32, Access.read 0x1000 4, Access.read 0x00C 4].map fun a =>
        ((then1 (flying 7 0 0 0#32) a).hazard, isNext (step (then1 (flying 7 0 0 0#32) a)))) =
      [(some .operandWrite, true), (some .commandIssue, true), (some .resultRead, true), (none, true)] := by decide +kernel

theorem test_meets_ModInverseIsTheUniqueInverse : isInverse 52430 32771 65537 ∧ isInverse 0 5 1 := by unfold isInverse; decide

theorem test_meets_MontgomeryLawsHold : (1 : Nat) % 2 = 1 ∧ n1 % 2 = 1 := by decide

theorem test_meets_MontgomeryFormRoundTrip : (idle 7 0 0).lat = none ∧ (idle 7 0 0).x 2 % 2 = 1 ∧ (3 : Reg) ≠ 2 := by decide +kernel

/-- The latched operands meet `pre`, and the command's own completion ends with the error code `e`. -/
def completesUnder (i : Instr) (s : State) (pre : Latch → Bool) (e : Option CmdError) : Bool :=
  s.lat.any pre && match exec i s with | .next t => t.errcode == e | _ => false

/-- CRTCOMB with a result and with an overflow. -/
theorem test_meets_CrtResultsStayBelowTheModulusProduct_crtcomb :
    [(61, none), (62, some CmdError.ovf)].all (fun p =>
      completesUnder (.crtcomb 3 0 1 2 4 5) (flying 7 (2 ^ p.1) 1 0x05421038#32) (fun l => 1 ≤ l.n && l.b < l.x) p.2) = true := by
  decide +kernel

/-- CRTEXP with a result and with an overflow. -/
theorem test_meets_CrtResultsStayBelowTheModulusProduct_crtexp :
    [([(2, 2), (4, 3)], none), ([(0, 2 ^ 64 - 1), (1, 3), (2, 2 ^ 61 - 1), (4, 2 ^ 31 - 1)], some CmdError.ovf)].all (fun p =>
      completesUnder (.crtexp 3 0 1 2 4) (busyWith p.1 0x00421039#32)
        (fun l => 2 ≤ l.n && 2 ≤ l.x && Nat.gcd l.x l.n == 1) p.2) = true := by
  decide +kernel

/-- c = 5, d = 3, p = 5, q = 7, n = 35, m = 34, e = d = 5, cP = 5^3 mod 5 = 0, cQ = 5^3 mod 7 = 6, qInv = 3 (7 * 3 = 21 = 4 * 5 + 1),
in r0, r1, r2, r4, r5, r6, r7, r8, r9 and r10. -/
def keyed : State := mk [(0, 5), (1, 3), (2, 5), (4, 7), (5, 35), (6, 34), (7, 5), (8, 0), (9, 6), (10, 3)]

theorem keyed_p : keyed.x 2 = 5 := by decide +kernel
theorem keyed_q : keyed.x 4 = 7 := by decide +kernel
theorem keyed_e : keyed.x 7 = 5 := by decide +kernel

/-- p divides c, but neither p - 1 nor q - 1 divides d. -/
theorem test_meets_CrtexpEqualsModexp :
    keyed.lat = none ∧ (keyed.x 2).Prime ∧ (keyed.x 4).Prime ∧ keyed.x 2 ≠ keyed.x 4 ∧ keyed.x 5 = keyed.x 2 * keyed.x 4 ∧
      keyed.x 5 < 2 ^ keyed.cfg.width ∧
      ¬ (keyed.x 2 ∣ keyed.x 0 ∧ 0 < keyed.x 1 ∧ (keyed.x 2 - 1) ∣ keyed.x 1) ∧
      ¬ (keyed.x 4 ∣ keyed.x 0 ∧ 0 < keyed.x 1 ∧ (keyed.x 4 - 1) ∣ keyed.x 1) :=
  ⟨rfl, by rw [keyed_p]; norm_num, by rw [keyed_q]; norm_num, by decide +kernel⟩

/-- The key has lcm(4, 6) = 12 and 5 * 5 = 25 = 2 * 12 + 1; m is the largest value below n. -/
theorem test_meets_RsaRoundTrip :
    keyed.lat = none ∧ ValidKey (keyed.x 2) (keyed.x 4) (keyed.x 7) (keyed.x 7) ∧ keyed.x 5 = keyed.x 2 * keyed.x 4 ∧
      keyed.x 5 < 2 ^ keyed.cfg.width ∧ keyed.x 6 < keyed.x 5 ∧ (3 : Reg) ≠ 7 ∧ (3 : Reg) ≠ 2 ∧ (3 : Reg) ≠ 4 ∧ (3 : Reg) ≠ 5 ∧
      keyed.x 2 % 2 = 1 ∧ keyed.x 4 % 2 = 1 := by
  refine ⟨rfl, ?_, by decide +kernel⟩
  rw [keyed_p, keyed_q, keyed_e]
  exact ⟨by norm_num, by norm_num, by norm_num, by decide, by decide⟩

theorem test_meets_CachedAndRecomputedCrtAgree :
    keyed.lat = none ∧ 1 < keyed.x 2 ∧ 1 < keyed.x 4 ∧ keyed.x 8 = keyed.x 0 ^ (keyed.x 1 % (keyed.x 2 - 1)) % keyed.x 2 ∧
      keyed.x 9 = keyed.x 0 ^ (keyed.x 1 % (keyed.x 4 - 1)) % keyed.x 4 ∧ isInverse (keyed.x 10) (keyed.x 4) (keyed.x 2) := by
  unfold isInverse; decide +kernel

end Sys2Proof.Tests
end

section
/-!
The modular inverse of R14: an inverse in [0, n) forces coprimality and is the only one, so with `modInverse_isSome` and
`modInverse_spec` it is exactly what `modInverse` answers.
-/

namespace Sys2Proof.Proofs

open Sys2Proof.Machine Sys2Proof.Claims

/-- Only an argument coprime to the modulus has an inverse (R14). -/
theorem gcd_eq_one_of_isInverse {v a n : Nat} (h : isInverse v a n) : Nat.gcd a n = 1 := by
  obtain ⟨-, hmul⟩ := h
  exact Nat.coprime_of_mul_modEq_one v hmul

/-- Two inverses in [0, n) agree: both give 1, and the factor `a`, coprime to `n`, cancels (R14). -/
theorem isInverse_unique {v w a n : Nat} (hv : isInverse v a n) (hw : isInverse w a n) : v = w := by
  have hg : Nat.gcd n a = 1 := Nat.Coprime.symm (gcd_eq_one_of_isInverse hv)
  obtain ⟨hvlt, hvmul⟩ := hv
  obtain ⟨hwlt, hwmul⟩ := hw
  have hmul : a * v ≡ a * w [MOD n] := hvmul.trans hwmul.symm
  exact (hmul.cancel_left_of_coprime hg).eq_of_lt_of_lt hvlt hwlt

/-- `modInverse` fails exactly when the arguments are not coprime (R14). -/
theorem modInverse_eq_none_iff (a n : Nat) : modInverse a n = none ↔ Nat.gcd a n ≠ 1 := by
  rw [ne_eq, ← modInverse_isSome, Bool.not_eq_true, Option.isSome_eq_false_iff, Option.isNone_iff_eq_none]

/-- `modInverse` answers `v` exactly when `v` is an inverse in [0, n) (R14). -/
theorem modInverse_eq_some_iff {a n v : Nat} (hn : 1 ≤ n) : modInverse a n = some v ↔ isInverse v a n := by
  constructor
  · exact modInverse_spec hn
  · intro hv
    obtain ⟨w, hw⟩ := Option.isSome_iff_exists.1 ((modInverse_isSome a n).2 (gcd_eq_one_of_isInverse hv))
    rw [hw, isInverse_unique (modInverse_spec hn hw) hv]

/-- Settles O54, from what `modInverse` answers and the uniqueness of an inverse in [0, n). -/
theorem modInverseIsTheUniqueInverse : Obligations.ModInverseIsTheUniqueInverse := by
  intro a n hn
  exact ⟨modInverse_eq_none_iff a n, fun _ => modInverse_eq_some_iff hn⟩

end Sys2Proof.Proofs
end

section
/-!
The state rules of 10_state.md: what the next event of the agenda does to the control registers and to the operand registers.
`WriteEffect` says once what a 32-bit write does, by the target it addresses, and `StepOutcome` what a step can answer, by the event it
takes; the address map, read backwards, turns a target into its offset. The rules about one field or one register are case analyses of
these two.
-/

namespace Sys2Proof.Proofs

open Sys2Proof.Machine Sys2Proof.Claims

/-! ### The address map, read backwards (R22, R52) -/

/-- The offset of a control register (R22); 0 for a target that is none. -/
def registerOffset : Target → Nat
  | .param => 0x004
  | .cmd => 0x008
  | .status => 0x00C
  | .irqen => 0x010
  | .irqstat => 0x014
  | .ctrl => 0x018
  | .id | .operand .. | .reserved => 0x000

/-- Only its own offset addresses a control register. -/
theorem registerOffset_controlOf {off : Nat} (h : controlOf off ≠ .reserved) : registerOffset (controlOf off) = off := by
  revert h
  unfold controlOf
  split <;> simp [registerOffset]

/-- An offset addresses a control register exactly when it is that register's (R22). -/
theorem targetOf_eq_register_iff {off o : Nat} (ho : o < 0x1000) (hr : controlOf o ≠ .reserved) :
    targetOf off = controlOf o ↔ off = o := by
  constructor
  · intro h
    have hoff : off < 0x1000 := by
      by_contra hge
      by_cases hwin : off < 0x3000
      · rw [targetOf_window (by omega) hwin] at h
        exact controlOf_ne_operand o _ _ h.symm
      · exact hr (h.symm.trans (targetOf_above (by omega)))
    rw [targetOf_control hoff] at h
    rw [← registerOffset_controlOf hr, ← h, registerOffset_controlOf (h ▸ hr)]
  · rintro rfl
    exact targetOf_control ho

@[simp] theorem targetOf_eq_cmd_iff {off : Nat} : targetOf off = .cmd ↔ off = 0x008 :=
  targetOf_eq_register_iff (o := 0x008) (by decide) (by decide)

@[simp] theorem targetOf_eq_irqen_iff {off : Nat} : targetOf off = .irqen ↔ off = 0x010 :=
  targetOf_eq_register_iff (o := 0x010) (by decide) (by decide)

@[simp] theorem targetOf_eq_irqstat_iff {off : Nat} : targetOf off = .irqstat ↔ off = 0x014 :=
  targetOf_eq_register_iff (o := 0x014) (by decide) (by decide)

@[simp] theorem targetOf_eq_ctrl_iff {off : Nat} : targetOf off = .ctrl ↔ off = 0x018 :=
  targetOf_eq_register_iff (o := 0x018) (by decide) (by decide)

/-! ### What a write does, by its target -/

/-- `WriteEffect s v tg t`: a write of `v` to `tg` takes `s` to `t` (R22, R25, R29 to R33, R52 to R55). -/
inductive WriteEffect (s : State) (v : Word) : Target → State → Prop
  | accepted : s.busy = false → WriteEffect s v .cmd (s.accept v)
  | commandDropped : s.busy = true → WriteEffect s v .cmd s.setOvr
  | interruptEnable : WriteEffect s v .irqen { s with doneie := v.getLsbD 0 }
  | doneCleared : v.getLsbD 0 = true → WriteEffect s v .irqstat { s with done := false }
  | doneKept : v.getLsbD 0 = false → WriteEffect s v .irqstat s
  | softReset : v.getLsbD 0 = true → WriteEffect s v .ctrl s.softReset
  | overrunCleared : v.getLsbD 0 = false → v.getLsbD 1 = true → WriteEffect s v .ctrl s.clearOvr
  | controlKept : v.getLsbD 0 = false → v.getLsbD 1 = false → WriteEffect s v .ctrl s
  | operandDropped (r : Reg) (k : Nat) : s.busy = true → WriteEffect s v (.operand r k) s.setOvr
  | operandWritten (r : Reg) (k : Nat) : s.busy = false → k < s.cfg.nw →
      WriteEffect s v (.operand r k) (s.setX r (replaceWord (s.x r) k v))
  | beyondWidth (r : Reg) (k : Nat) : s.busy = false → s.cfg.nw ≤ k → WriteEffect s v (.operand r k) s
  | identIgnored : WriteEffect s v .id s
  | paramIgnored : WriteEffect s v .param s
  | statusIgnored : WriteEffect s v .status s
  | reservedIgnored : WriteEffect s v .reserved s

theorem writeTarget_effect (s : State) (tg : Target) (v : Word) : WriteEffect s v tg (s.writeTarget tg v) := by
  cases tg with
  | id => exact .identIgnored
  | param => exact .paramIgnored
  | status => exact .statusIgnored
  | reserved => exact .reservedIgnored
  | irqen => exact .interruptEnable
  | cmd =>
    simp only [State.writeTarget, State.writeCmd]
    split
    · exact .commandDropped ‹_›
    · exact .accepted (Bool.eq_false_of_not_eq_true ‹_›)
  | irqstat =>
    simp only [State.writeTarget]
    split
    · exact .doneCleared ‹_›
    · exact .doneKept (Bool.eq_false_of_not_eq_true ‹_›)
  | ctrl =>
    simp only [State.writeTarget, State.writeCtrl]
    split
    · exact .softReset ‹_›
    · split
      · exact .overrunCleared (Bool.eq_false_of_not_eq_true ‹_›) ‹_›
      · exact .controlKept (Bool.eq_false_of_not_eq_true ‹_›) (Bool.eq_false_of_not_eq_true ‹_›)
  | operand r k =>
    simp only [State.writeTarget, State.writeOperand]
    split
    · exact .operandDropped r k ‹_›
    · split
      · exact .operandWritten r k (Bool.eq_false_of_not_eq_true ‹_›) ‹_›
      · exact .beyondWidth r k (Bool.eq_false_of_not_eq_true ‹_›) (Nat.not_lt.1 ‹_›)

section WriteEffect
variable {s t : State} {v : Word} {tg : Target}

/-- BUSY after a write: a CMD write leaves a command in flight, whether it was accepted or dropped (R27). -/
theorem WriteEffect.busy_eq (h : WriteEffect s v tg t) :
    t.busy = if tg = .cmd then true else if tg = .ctrl ∧ v.getLsbD 0 = true then false else s.busy := by
  cases h <;> simp_all [State.busy]

/-- OVR after a write (R29, R32); `drawsOn` is true exactly of the operand window while a command is in flight. -/
theorem WriteEffect.ovr_eq (h : WriteEffect s v tg t) :
    t.ovr = if tg = .ctrl ∧ (v.getLsbD 0 = true ∨ v.getLsbD 1 = true) then false
      else if s.busy = true ∧ tg = .cmd ∨ s.drawsOn tg = true then true else s.ovr := by
  cases h <;> simp_all [State.drawsOn]

theorem WriteEffect.done_eq (h : WriteEffect s v tg t) :
    t.done = if (tg = .irqstat ∨ tg = .ctrl) ∧ v.getLsbD 0 = true then false else s.done := by
  cases h <;> simp_all

theorem WriteEffect.doneie_eq (h : WriteEffect s v tg t) :
    t.doneie = if tg = .irqen then v.getLsbD 0 else if tg = .ctrl ∧ v.getLsbD 0 = true then false else s.doneie := by
  cases h <;> simp_all

/-- ERRCODE and ERR after a write (R28, R36, R181). -/
theorem WriteEffect.error_eq (h : WriteEffect s v tg t) :
    if (tg = .cmd ∧ s.busy = false) ∨ (tg = .ctrl ∧ v.getLsbD 0 = true) then t.errcode = none ∧ t.err = false
    else t.errcode = s.errcode ∧ t.err = s.err := by
  cases h <;> simp_all

/-- A write leaves an operand register and its mark as they are, unless it is of one of its words while idle; then it is marked (R20). -/
theorem WriteEffect.register (h : WriteEffect s v tg t) (r : Reg) :
    (t.x r = s.x r ∧ t.isWritten r = s.isWritten r) ∨
      (t.isWritten r = true ∧ s.busy = false ∧ ∃ k, tg = .operand r k ∧ k < s.cfg.nw) := by
  cases h with
  | operandWritten r' k hb hk =>
    by_cases hr : r = r'
    · exact .inr ⟨by simp [hr], hb, k, by rw [hr], hk⟩
    · exact .inl (by simp [hr])
  | _ => exact .inl ⟨rfl, rfl⟩

end WriteEffect

/-! ### What a step can answer, by its event -/

/-- `StepOutcome s t`: the step from `s` can answer `t` (R18, R50, R166, R180). What a read answers is left open: no rule here needs it. -/
inductive StepOutcome (s : State) : State → Prop
  | idleTurn (rest : List Event) : engineNext s rest → s.lat = none → StepOutcome s { s with agenda := rest }
  | completion (rest : List Event) (l : Latch) (out : CmdResult) : engineNext s rest → s.lat = some l →
      ((∃ i, decode l.word = .ok i ∧ out = commandResult i s.cfg.width l) ∨
        (∃ e, decode l.word = .error e ∧ out = .err .illegal)) →
      StepOutcome s (State.complete { s with agenda := rest } l out)
  | read (addr n : Nat) (rest : List Event) (r : Response) (drawn : Bool) : s.agenda = .host (.read addr n) :: rest →
      StepOutcome s (State.answer { s with agenda := rest } r drawn)
  | write (off : Nat) (v : Word) (rest : List Event) (u : State) : nextWrites s off v rest → off % 4 = 0 →
      WriteEffect { s with agenda := rest } v (targetOf off) u → StepOutcome s (u.answer .okayWrite false)
  | hardReset (rest : List Event) : s.agenda = .hardReset :: rest →
      StepOutcome s (State.hardReset { s with agenda := rest })

/-- A write that the block defines is a 4-byte write at an aligned offset from BASE (R9, R51). -/
theorem exists_offset_of_write_defined {c : Config} {addr n : Nat} {v : Word}
    (h : (Access.write addr n v).defined c = true) :
    ∃ off, addr = c.base + off ∧ n = 4 ∧ off < 0x4000 ∧ off % 4 = 0 := by
  obtain ⟨hn, h4, hlo, hhi⟩ := (Access.defined_iff _ _).1 h
  simp only [Access.bytes, Access.addr] at hn h4 hlo hhi
  have hbase := c.base_aligned
  exact ⟨addr - c.base, by omega, hn, by omega, by omega⟩

theorem step_outcome {s t : State} (h : step s = .next t) : StepOutcome s t := by
  obtain ⟨rest, hn, ht⟩ | ⟨a, rest, ha, hd, ht⟩ | ⟨rest, ha, rfl⟩ := step_next_cases h
  · obtain ⟨hl, he⟩ | ⟨l, out, hl, he, hout⟩ := engineStep_cases { s with agenda := rest }
    · cases he.symm.trans ht
      exact .idleTurn rest hn hl
    · cases he.symm.trans ht
      exact .completion rest l out hn hl hout
  · cases a with
    | read addr n => exact ht ▸ .read addr n rest _ _ ha
    | write addr n v =>
      obtain ⟨off, rfl, rfl, hlt, h4⟩ := exists_offset_of_write_defined hd
      rw [← Host.Outcome.next.inj ((step_write ha hlt h4).symm.trans h)]
      exact .write off v rest _ ha h4 (writeTarget_effect _ _ _)
  · exact .hardReset rest ha

section Step
variable {s t : State} {r : Reg}

/-- The agenda holds no register's mark. -/
@[simp] theorem isWritten_agenda (es : List Event) : State.isWritten { s with agenda := es } r = s.isWritten r := rfl

/-- The engine's turn is no turn of the host and no reset. -/
theorem eq_engine_of_engineNext {rest rest' : List Event} {e : Event} (h : engineNext s rest) (ha : s.agenda = e :: rest') :
    e = .engine := by
  obtain h | ⟨h, -⟩ := h <;> rw [ha] at h <;> cases h
  rfl

/-- Operand register `r` is written by the host next: one of its words, while idle (R20, R53). -/
def hostWritesNext (s : State) (r : Reg) : Prop :=
  ∃ k v rest, nextWrites s (0x1000 + 0x200 * r.val + 4 * k) v rest ∧ k < s.cfg.nw ∧ s.busy = false

/-- Operand register `r` is written by the command in flight, whose completion leads to `t` (R20, R166). -/
def commandWrites (s t : State) (r : Reg) : Prop :=
  ∃ l i rest, engineNext s rest ∧ s.lat = some l ∧ l.d = r ∧ decode l.word = .ok i ∧ i ≠ .nop ∧ t.errcode = none

/-- A step other than a hardware reset leaves an operand register and its mark as they are, or marks it in one of the two events that
write it (R20). -/
theorem step_register (h : step s = .next t) (hr : ∀ rest, s.agenda ≠ .hardReset :: rest) :
    (t.x r = s.x r ∧ t.isWritten r = s.isWritten r) ∨
      (t.isWritten r = true ∧ (hostWritesNext s r ∨ commandWrites s t r)) := by
  cases step_outcome h with
  | idleTurn rest hn hl => exact .inl ⟨rfl, rfl⟩
  | completion rest l out hn hl hout =>
    cases out with
    | okNone => exact .inl ⟨rfl, rfl⟩
    | err e => exact .inl ⟨rfl, rfl⟩
    | ok v =>
      by_cases hd : r = l.d
      · obtain ⟨i, hi, hv⟩ | ⟨e, -, he⟩ := hout
        · exact .inr ⟨by simp [hd], .inr ⟨l, i, rest, hn, hl, hd.symm, hi, ne_nop_of_commandResult_ok hv.symm, rfl⟩⟩
        · cases he
      · exact .inl ⟨by simp [hd], by simp [hd]⟩
  | read addr n rest a drawn ha => exact .inl ⟨rfl, rfl⟩
  | write off v rest u ha h4 hw =>
    obtain hkeep | ⟨hmark, hb, k, htg, hk⟩ := hw.register r
    · exact .inl hkeep
    · obtain ⟨rfl, -⟩ := targetOf_eq_operand h4 htg
      exact .inr ⟨hmark, .inl ⟨k, v, rest, ha, hk, hb⟩⟩
  | hardReset rest ha => exact absurd ha (hr rest)

/-- A host write to one of a register's words while idle marks it written (R20, U1; log 3). -/
theorem isWritten_of_hostWritesNext (h : step s = .next t) (hw : hostWritesNext s r) : t.isWritten r = true := by
  obtain ⟨k, v, rest, ha, hk, hb⟩ := hw
  have hk128 : k < 128 := Nat.lt_of_lt_of_le hk s.cfg.nw_le
  have hr := r.isLt
  have hstep := step_write ha (by omega) (by omega)
  rw [targetOf_operand r hk128] at hstep
  rw [← Host.Outcome.next.inj (hstep.symm.trans h)]
  simp [State.writeTarget, State.writeOperand, hb, hk]

/-- A completion with OK of a command that names the register as RD marks it written (R20, R166, U1). -/
theorem isWritten_of_commandWrites (h : step s = .next t) (hw : commandWrites s t r) : t.isWritten r = true := by
  obtain ⟨l, i, rest, hn, hl, rfl, hi, hnop, hok⟩ := hw
  cases step_outcome h with
  | idleTurn rest' hn' hl' => simp [hl] at hl'
  | completion rest' l' out hn' hl' hout =>
    obtain rfl : l = l' := Option.some.inj (hl.symm.trans hl')
    obtain ⟨j, hj, rfl⟩ | ⟨e, he, -⟩ := hout
    · obtain rfl : i = j := Except.ok.inj (hi.symm.trans hj)
      exact State.complete_isWritten _ _ _ (commandResult_ne_okNone hnop _ _) hok
    · simp [hi] at he
  | read addr n rest' a drawn ha => cases eq_engine_of_engineNext hn ha
  | write off v rest' u ha => cases eq_engine_of_engineNext hn ha
  | hardReset rest' ha => cases eq_engine_of_engineNext hn ha

end Step

/-- Settles O34: `step_register`, and a hardware reset is the third event named. -/
theorem registersChangeOnlyByTheseEvents : Obligations.RegistersChangeOnlyByTheseEvents := by
  intro s t r h hx
  by_cases hreset : ∃ rest, s.agenda = .hardReset :: rest
  · exact .inr (.inr hreset)
  · obtain ⟨hkeep, -⟩ | ⟨-, hhost | hcmd⟩ := step_register (r := r) h (not_exists.1 hreset)
    · exact absurd hkeep hx
    · exact .inl hhost
    · exact .inr (.inl hcmd)

/-- Settles O35: the two events that write a register mark it, and by `step_register` nothing else does. -/
theorem writtenMarksFollowTheWrites : Obligations.WrittenMarksFollowTheWrites := by
  intro s t r h hreset
  refine ⟨fun hw => ?_, fun k v rest ha hk hb => ?_, fun l i rest hn hl hd hi hnop hok => ?_, fun hx => ?_, fun hw hw' => ?_⟩
  · obtain ⟨-, hkeep⟩ | ⟨hmark, -⟩ := step_register (r := r) h hreset
    · rw [hkeep, hw]
    · exact hmark
  · exact isWritten_of_hostWritesNext h ⟨k, v, rest, ha, hk, hb⟩
  · exact isWritten_of_commandWrites h ⟨l, i, rest, hn, hl, hd, hi, hnop, hok⟩
  · obtain ⟨hkeep, -⟩ | ⟨hmark, -⟩ := step_register (r := r) h hreset
    · exact absurd hkeep hx
    · exact hmark
  · obtain ⟨-, hkeep⟩ | ⟨-, hevent⟩ := step_register (r := r) h hreset
    · rw [hkeep, hw] at hw'; cases hw'
    · exact hevent

/-- Settles O36: the engine's turn leaves no command in flight, and of the writes only CMD and CTRL touch BUSY. -/
theorem busyFollowsAcceptanceAndCompletion : Obligations.BusyFollowsAcceptanceAndCompletion := by
  intro s t h
  cases step_outcome h with
  | idleTurn rest hn hl =>
    have hb : s.busy = false := s.busy_eq_false_iff.2 hl
    obtain ha | ⟨ha, -⟩ := hn <;> rw [ha] <;> exact hb
  | completion rest l out hn => obtain ha | ⟨ha, -⟩ := hn <;> rw [ha] <;> exact State.complete_busy _ _ _
  | read addr n rest r drawn ha => rw [ha]; rfl
  | write off v rest u ha h4 hw => rw [ha]; simpa using hw.busy_eq
  | hardReset rest ha => rw [ha]; rfl

/-- Settles O37: of all events only a write or a hardware reset touches OVR, and `WriteEffect.ovr_eq` is the table of the writes. -/
theorem ovrIsTheStickyRecordOfDroppedWrites : Obligations.OvrIsTheStickyRecordOfDroppedWrites := by
  intro s t h
  cases step_outcome h with
  | idleTurn rest hn => obtain ha | ⟨ha, -⟩ := hn <;> rw [ha]
  | completion rest l out hn => obtain ha | ⟨ha, -⟩ := hn <;> rw [ha] <;> exact State.complete_ovr _ _ _
  | read addr n rest r drawn ha => rw [ha]; rfl
  | write off v rest u ha h4 hw =>
    rw [ha]
    simpa [State.drawsOn_targetOf, and_or_left] using hw.ovr_eq
  | hardReset rest ha => rw [ha]; rfl

/-- Settles O38: a completion sets DONE, and the writes follow `WriteEffect.done_eq` and `WriteEffect.doneie_eq`. -/
theorem interruptBitsFollowTheirRules : Obligations.InterruptBitsFollowTheirRules := by
  intro s t h
  refine ⟨?_, ?_, rfl⟩
  · cases step_outcome h with
    | idleTurn rest hn hl =>
      have hd : s.done = (s.done || s.busy) := by simp [s.busy_eq_false_iff.2 hl]
      obtain ha | ⟨ha, -⟩ := hn <;> rw [ha] <;> exact hd
    | completion rest l out hn hl =>
      have hd : (State.complete { s with agenda := rest } l out).done = (s.done || s.busy) := by
        simp [s.busy_eq_true_iff.2 ⟨l, hl⟩]
      obtain ha | ⟨ha, -⟩ := hn <;> rw [ha] <;> exact hd
    | read addr n rest r drawn ha => rw [ha]; rfl
    | write off v rest u ha h4 hw => rw [ha]; simpa using hw.done_eq
    | hardReset rest ha => rw [ha]; rfl
  · cases step_outcome h with
    | idleTurn rest hn => obtain ha | ⟨ha, -⟩ := hn <;> rw [ha]
    | completion rest l out hn => obtain ha | ⟨ha, -⟩ := hn <;> rw [ha] <;> exact State.complete_doneie _ _ _
    | read addr n rest r drawn ha => rw [ha]; rfl
    | write off v rest u ha h4 hw => rw [ha]; simpa using hw.doneie_eq
    | hardReset rest ha => rw [ha]; rfl

/-- Settles O39: a completion sets ERR from its code, and the writes follow `WriteEffect.error_eq`. -/
theorem errcodeIsOverwrittenOnlyByTheseEvents : Obligations.ErrcodeIsOverwrittenOnlyByTheseEvents := by
  intro s t h
  cases step_outcome h with
  | idleTurn rest hn hl =>
    have hb : s.busy = false := s.busy_eq_false_iff.2 hl
    obtain ha | ⟨ha, -⟩ := hn <;> simp [ha, hb]
  | completion rest l out hn hl =>
    have hb : s.busy = true := s.busy_eq_true_iff.2 ⟨l, hl⟩
    obtain ha | ⟨ha, -⟩ := hn <;> simp [ha, hb, State.complete_err_eq]
  | read addr n rest r drawn ha => rw [ha]; exact ⟨rfl, rfl⟩
  | write off v rest u ha h4 hw => rw [ha]; simpa using hw.error_eq
  | hardReset rest ha => rw [ha]; exact ⟨rfl, rfl⟩

/-! ### The control registers on the bus (R22 to R33, R36) -/

/-- The latch of acceptance, its fields by division (R36, R70). -/
theorem latchOf_eq_latched (w : Word) (s : State) : latchOf w s = latched s w := by
  have field (lo : Nat) : nibble w lo = Fin.ofNat 16 (w.toNat / 2 ^ lo) := Fin.ext (nibble_val w lo)
  simp only [latchOf, latched, fieldRD, fieldRA, fieldRB, fieldRN, fieldRX, fieldRY, field]

/-- Settles O41: the write is `State.writeCmd`, and acceptance takes the latch written out by division. -/
theorem cmdWritesAcceptOrOverrun : Obligations.CmdWritesAcceptOrOverrun := by
  intro s w rest
  refine ⟨fun ha hb => ?_, fun ha hb => ?_, fun ha => ?_⟩
  · rw [step_write ha (by decide) (by decide), targetOf_cmd, ← latchOf_eq_latched]
    simp only [State.writeTarget, State.writeCmd, State.busy_agenda, hb]
    rfl
  · rw [step_write ha (by decide) (by decide), targetOf_cmd]
    simp only [State.writeTarget, State.writeCmd, State.busy_agenda, hb]
    rfl
  · rw [step_read ha (by decide) (by decide)]
    rfl

/-- Settles O46: by the target of the write and the bit that decides. -/
theorem controlWritesDoTheirEffect : Obligations.ControlWritesDoTheirEffect := by
  intro s v rest
  refine ⟨fun ha => ?_, fun ha => ?_, fun ha hsrst => ?_⟩
  · rw [step_write ha (by decide) (by decide)]
    rfl
  · rw [step_write ha (by decide) (by decide), targetOf_irqstat, State.writeTarget]
    cases v.getLsbD 0 <;> simp [State.answer]
  · rw [step_write ha (by decide) (by decide), targetOf_ctrl, State.writeTarget, State.writeCtrl, hsrst]
    cases v.getLsbD 1 <;> simp [State.answer, State.clearOvr]

/-- Settles O47: each of these offsets is of a target whose write does nothing. -/
theorem readOnlyAndReservedWritesAreIgnored : Obligations.ReadOnlyAndReservedWritesAreIgnored := by
  intro s off v rest ha h4 hoff
  rw [step_write ha (by omega) h4]
  obtain rfl | rfl | rfl | hres := hoff
  · rfl
  · rfl
  · rfl
  · rw [targetOf_reserved (by omega)]
    rfl

/-- Bits put above other bits, as a number. -/
theorem toNat_append_eq_add {m n : Nat} (hi : BitVec m) (lo : BitVec n) : (hi ++ lo).toNat = hi.toNat * 2 ^ n + lo.toNat := by
  rw [BitVec.toNat_append, ← Nat.shiftLeft_add_eq_or_of_lt lo.isLt, Nat.shiftLeft_eq]

theorem ofBool_toNat (b : Bool) : (BitVec.ofBool b).toNat = bit b := by
  cases b <;> rfl

theorem errCodeNumber_toNat (e : Option CmdError) : (errCodeNumber e).toNat = codeOf e := by
  cases e with
  | none => rfl
  | some e => cases e <;> rfl

/-- STATUS as a number (R26, R161). -/
theorem statusWord_toNat (s : State) :
    s.statusWord.toNat = bit s.busy + 2 * bit s.err + 4 * bit s.ovr + 2 ^ 8 * codeOf s.errcode := by
  simp only [State.statusWord, toNat_append_eq_add, ofBool_toNat, errCodeNumber_toNat, BitVec.toNat_zero]
  omega

/-- PARAM as a number (R24): NW fits its 16 bits (R5). -/
theorem paramWord_toNat (s : State) : s.paramWord.toNat = s.cfg.nw + 0x10 * 2 ^ 16 + 0x01 * 2 ^ 24 := by
  have hnw := s.cfg.nw_le
  simp only [State.paramWord, toNat_append_eq_add, BitVec.toNat_ofNat, Config.version, Config.nreg]
  omega

/-- A word with one bit, as a number (R30, R31). -/
theorem oneBitWord_toNat (b : Bool) : (0#31 ++ BitVec.ofBool b).toNat = bit b := by
  rw [toNat_append_eq_add, ofBool_toNat, BitVec.toNat_zero, Nat.zero_mul, Nat.zero_add]

/-- Settles O45: at an aligned offset outside the operand window stands one of the seven registers or a reserved word. -/
theorem controlReadsReturnTheRegisters : Obligations.ControlReadsReturnTheRegisters := by
  intro s off rest ha h4 hoff
  have hdraw : ¬ s.drawsOn (targetOf off) = true := by rw [State.drawsOn_targetOf]; omega
  refine ⟨s.readData (targetOf off), by rw [step_read ha (by omega) h4, if_neg hdraw], ?_⟩
  obtain rfl | rfl | rfl | rfl | rfl | rfl | rfl | hres : off = 0x000 ∨ off = 0x004 ∨ off = 0x008 ∨ off = 0x00C ∨ off = 0x010 ∨
      off = 0x014 ∨ off = 0x018 ∨ 0x01C ≤ off := by omega
  · rfl
  · simp [State.readData, paramWord_toNat]
  · rfl
  · exact statusWord_toNat s
  · exact oneBitWord_toNat _
  · exact oneBitWord_toNat _
  · rfl
  · rw [targetOf_reserved (by omega)]
    repeat rw [if_neg (by omega)]
    rfl

end Sys2Proof.Proofs
end

section
/-!
The operand window of 20_memory.md: what one read and one write of a word of an operand register do, idle and busy (R53 to R56).
`step_operandRead` and `step_operandWrite` take the address map away once; `testBit_replaceWord` says a replaced word bit by bit.
-/

namespace Sys2Proof.Proofs

open Sys2Proof.Machine Sys2Proof.Claims

section OperandWindow
variable {s : State} {r : Reg} {k : Nat} {rest : List Event}

/-- The step of a host read of word `k` of register `r`: a draw is counted exactly when a command is in flight (R53, R56). -/
theorem step_operandRead (hk : k < 128) (h : nextReads s (0x1000 + 0x200 * r.val + 4 * k) rest) :
    step s = .next { s with
      agenda := rest, hostLog := .okayRead (s.readData (.operand r k)) :: s.hostLog
      draws := if s.busy then s.draws + 1 else s.draws } := by
  have hr := r.isLt
  rw [step_read h (by omega) (by omega), targetOf_operand r hk]
  rfl

/-- The step of a host write of word `k` of register `r` (R53). -/
theorem step_operandWrite {data : Word} (hk : k < 128) (h : nextWrites s (0x1000 + 0x200 * r.val + 4 * k) data rest) :
    step s = .next ((State.writeOperand { s with agenda := rest } r k data).answer .okayWrite false) := by
  have hr := r.isLt
  rw [step_write h (by omega) (by omega), targetOf_operand r hk]
  rfl

/-- A word of an idle block's register, inside its width (R53). -/
theorem readData_operand_idle (hb : s.busy = false) (hk : k < s.cfg.nw) :
    s.readData (.operand r k) = operandWord (s.x r) k := by
  simp [State.readData, hb, hk]

/-- Beyond the register's width an idle block reads 0 (R54). -/
theorem readData_operand_beyond (hb : s.busy = false) (hk : s.cfg.nw ≤ k) : s.readData (.operand r k) = 0x00000000#32 := by
  simp [State.readData, hb, Nat.not_lt.2 hk]

/-- While a command is in flight the window reads as the next free draw (R56; log 5). -/
theorem readData_operand_busy (hb : s.busy = true) : s.readData (.operand r k) = Config.freeWord s.draws := by
  simp [State.readData, hb]

/-- A write of an idle block's register, inside its width, replaces the word (R53). -/
theorem writeOperand_idle {data : Word} (hb : s.busy = false) (hk : k < s.cfg.nw) :
    s.writeOperand r k data = s.setX r (replaceWord (s.x r) k data) := by
  simp [State.writeOperand, hb, hk]

/-- Beyond the register's width a write to an idle block is ignored (R54). -/
theorem writeOperand_beyond {data : Word} (hb : s.busy = false) (hk : s.cfg.nw ≤ k) : s.writeOperand r k data = s := by
  simp [State.writeOperand, hb, Nat.not_lt.2 hk]

/-- While a command is in flight a write of the window only sets OVR (R55). -/
theorem writeOperand_busy {data : Word} (hb : s.busy = true) : s.writeOperand r k data = s.setOvr := by
  simp [State.writeOperand, hb]

end OperandWindow

/-- Settles O42: the three answers of a read of the window, and the draw it counts while busy. -/
theorem operandReadsReturnTheWord : Obligations.OperandReadsReturnTheWord := by
  intro s r k rest hk h
  rw [step_operandRead hk h]
  refine ⟨fun hb hin => ?_, fun hb hout => ?_, fun hb => ?_⟩
  · rw [readData_operand_idle hb hin, hb]
    rfl
  · rw [readData_operand_beyond hb hout, hb]
    rfl
  · rw [readData_operand_busy hb, hb]
    rfl

/-- The replaced value as three pieces stacked: the bits above the word, the word, the bits below it (R53). -/
theorem replaceWord_eq_stack (v k : Nat) (data : Word) :
    replaceWord v k data = 2 ^ (32 * k) * (2 ^ 32 * (v / 2 ^ (32 * k + 32)) + data.toNat) + v % 2 ^ (32 * k) := by
  rw [replaceWord, pow_add]
  ring

/-- Bit `j` after word `k` is replaced is a bit of the word inside its 32 bits, and the old bit everywhere else (R53). -/
theorem testBit_replaceWord (v k : Nat) (data : Word) (j : Nat) :
    (replaceWord v k data).testBit j =
      if 32 * k ≤ j ∧ j < 32 * k + 32 then data.getLsbD (j - 32 * k) else v.testBit j := by
  have hlow : v % 2 ^ (32 * k) < 2 ^ (32 * k) := Nat.mod_lt v (by positivity)
  rw [replaceWord_eq_stack, Nat.testBit_two_pow_mul_add _ hlow, Nat.testBit_two_pow_mul_add _ data.isLt]
  by_cases hbelow : j < 32 * k
  · rw [if_pos hbelow, if_neg (by omega), Nat.testBit_mod_two_pow]
    simp [hbelow]
  by_cases hword : j - 32 * k < 32
  · rw [if_neg hbelow, if_pos hword, if_pos (by omega)]
    rfl
  · rw [if_neg hbelow, if_neg hword, if_neg (by omega), Nat.testBit_div_two_pow]
    congr 1
    omega

/-- Settles O43: the three effects of a write of the window, with the value an idle write leaves read off by `testBit_replaceWord`. -/
theorem operandWritesReplaceOneWord : Obligations.OperandWritesReplaceOneWord := by
  intro s r k data rest hk h
  rw [step_operandWrite hk h]
  refine ⟨fun hb hin => ⟨replaceWord (s.x r) k data, ?_, testBit_replaceWord (s.x r) k data⟩, fun hb hout => ?_, fun hb => ?_⟩
  · rw [writeOperand_idle (s := { s with agenda := rest }) hb hin]
    rfl
  · rw [writeOperand_beyond (s := { s with agenda := rest }) hb hout]
    rfl
  · rw [writeOperand_busy (s := { s with agenda := rest }) hb]
    rfl

end Sys2Proof.Proofs
end

section
/-!
The command word of 30_encoding.md. `decode_eq_ok_iff` says once what a word decodes to: RSV is 0, OP is the command's opcode, and the
fields the opcode uses hold the command's registers. `and_usedMask_eq_encode_iff` says that this is the word masked to its used fields
being the assembler's word. The opcode rows of R74 and the unused fields of R75 are read off the two.
-/

namespace Sys2Proof.Proofs

open Sys2Proof.Machine Sys2Proof.Claims

/-! ### The fields of a masked word, and the packing of a word's fields (R70, R80) -/

/-- Under a mask that keeps a field whole, the masked word holds the word's field. -/
theorem nibble_and_of_kept {m : Word} {lo : Nat} (w : Word) (hm : nibble m lo = 15) : nibble (w &&& m) lo = nibble w lo := by
  have hones : m.extractLsb' lo 4 = BitVec.allOnes 4 := BitVec.eq_of_toFin_eq hm
  simp only [nibble, BitVec.extractLsb'_and, hones, BitVec.and_allOnes]

/-- Under a mask that drops a field, the masked word holds 0 there. -/
theorem nibble_and_of_dropped {m : Word} {lo : Nat} (w : Word) (hm : nibble m lo = 0) : nibble (w &&& m) lo = 0 := by
  have hzero : m.extractLsb' lo 4 = 0#4 := BitVec.eq_of_toFin_eq hm
  simp only [nibble, BitVec.extractLsb'_and, hzero, BitVec.and_zero]
  rfl

theorem fieldRSV_eq_zero_iff (w : Word) : fieldRSV w = 0 ↔ w.toNat / 2 ^ 28 = 0 := by
  have hw := w.isLt
  rw [Fin.ext_iff, fieldRSV, nibble_val, Fin.val_zero]
  omega

/-- A word is the packing of seven values exactly when RSV is 0 and these are its fields. -/
theorem eq_packFields_iff {w : Word} {op rd ra rb rn rx ry : Fin 16} :
    w = packFields op rd ra rb rn rx ry ↔
      fieldRSV w = 0 ∧ fieldOP w = op ∧ fieldRD w = rd ∧ fieldRA w = ra ∧ fieldRB w = rb ∧ fieldRN w = rn ∧ fieldRX w = rx ∧
        fieldRY w = ry := by
  constructor
  · rintro rfl
    exact ⟨fieldRSV_pack .., fieldOP_pack .., fieldRD_pack .., fieldRA_pack .., fieldRB_pack .., fieldRN_pack .., fieldRX_pack ..,
      fieldRY_pack ..⟩
  · rintro ⟨hrsv, rfl, rfl, rfl, rfl, rfl, rfl, rfl⟩
    have htop := (fieldRSV_eq_zero_iff w).1 hrsv
    apply BitVec.eq_of_toNat_eq
    simp only [packFields_toNat, fieldOP, fieldRD, fieldRA, fieldRB, fieldRN, fieldRX, fieldRY, nibble_val]
    omega

/-! ### What a word decodes to (R73, R74, R75, R78, R80) -/

/-- The fields that the command's opcode uses hold the command's registers in `w` (R73, R81). -/
def fieldsHold (w : Word) : Instr → Prop
  | .nop => True
  | .modred d a n | .tomont d a n | .frommont d a n => fieldRD w = d ∧ fieldRA w = a ∧ fieldRN w = n
  | .modsub d a b n | .modmul d a b n | .montmul d a b n | .modexp d a b n =>
    fieldRD w = d ∧ fieldRA w = a ∧ fieldRB w = b ∧ fieldRN w = n
  | .crtcomb d a b n x y =>
    fieldRD w = d ∧ fieldRA w = a ∧ fieldRB w = b ∧ fieldRN w = n ∧ fieldRX w = x ∧ fieldRY w = y
  | .crtexp d a b n x => fieldRD w = d ∧ fieldRA w = a ∧ fieldRB w = b ∧ fieldRN w = n ∧ fieldRX w = x

/-- A word decodes to a command exactly when RSV is 0, OP is its opcode, and the used fields hold its registers (R74, R78). -/
theorem decode_eq_ok_iff {w : Word} {i : Instr} :
    decode w = .ok i ↔ fieldRSV w = 0 ∧ fieldOP w = i.opcode ∧ fieldsHold w i := by
  constructor
  · intro h
    unfold decode at h
    split at h
    · cases h
    · have hrsv : fieldRSV w = 0 := not_not.1 ‹_›
      split at h <;> cases h <;> exact ⟨hrsv, Fin.ext ‹_›, by simp [fieldsHold]⟩
  · rintro ⟨hrsv, hop, hf⟩
    cases i <;> simp_all [decode, fieldsHold, Instr.opcode]

/-- A word masked to the used fields of a command is the assembler's word of it exactly when it decodes to it (R75, R80). -/
theorem and_usedMask_eq_encode_iff {w : Word} {i : Instr} : w &&& i.usedMask = encode i ↔ decode w = .ok i := by
  rw [decode_eq_ok_iff]
  cases i <;>
    simp (disch := decide) only [encode, Instr.usedMask, Instr.opcode, fieldsHold, eq_packFields_iff, nibble_and_of_kept,
      nibble_and_of_dropped, fieldOP, fieldRD, fieldRA, fieldRB, fieldRN, fieldRX, fieldRY, fieldRSV, true_and, and_true]

/-- The assembler's word decodes to its command (R78, R80). -/
theorem decode_encode (i : Instr) : decode (encode i) = .ok i := by
  rw [decode_eq_ok_iff]
  cases i <;>
    simp [encode, Instr.opcode, fieldsHold, fieldOP_pack, fieldRD_pack, fieldRA_pack, fieldRB_pack, fieldRN_pack, fieldRX_pack,
      fieldRY_pack, fieldRSV_pack]

/-! ### The rows of the opcode map (R72, R74) -/

theorem fieldOP_val (w : Word) : (fieldOP w).val = w.toNat % 16 := by
  rw [fieldOP, nibble_val, pow_zero, Nat.div_one]

/-- The match value of a row is its opcode (R74). -/
theorem rowMatch_eq_ofNat (op : Fin 16) : rowMatch op = BitVec.ofNat 32 op.val := by
  apply BitVec.eq_of_toNat_eq
  rw [rowMatch, fieldWord_toNat, BitVec.toNat_ofNat]
  omega

theorem opcode_le_nine (i : Instr) : i.opcode.val ≤ 9 := by
  cases i <;> simp [Instr.opcode]

/-- A word is illegal exactly when RSV is not 0 or the opcode is reserved (R72, R74). -/
theorem exists_decode_eq_error_iff {w : Word} : (∃ e, decode w = .error e) ↔ fieldRSV w ≠ 0 ∨ 0xA ≤ (fieldOP w).val := by
  unfold decode
  split
  · simp [*]
  · split <;> simp_all
    omega

/-- A word selects the row of its OP exactly when RSV is 0 and the opcode is not reserved (R74). -/
theorem exists_decode_eq_ok_iff {w : Word} {op : Fin 16} :
    (∃ i, decode w = .ok i ∧ i.opcode = op) ↔ (fieldRSV w = 0 ∧ fieldOP w = op) ∧ op.val ≤ 9 := by
  constructor
  · rintro ⟨i, hi, rfl⟩
    obtain ⟨hrsv, hop, -⟩ := decode_eq_ok_iff.1 hi
    exact ⟨⟨hrsv, hop⟩, opcode_le_nine i⟩
  · rintro ⟨⟨hrsv, rfl⟩, hle⟩
    cases hd : decode w with
    | ok i =>
      obtain ⟨-, hop, -⟩ := decode_eq_ok_iff.1 hd
      exact ⟨i, rfl, hop.symm⟩
    | error e =>
      obtain hne | hres := exists_decode_eq_error_iff.1 ⟨e, hd⟩
      · exact absurd hrsv hne
      · omega

/-- An illegal word, accepted, completes with ILLEGAL (R72, R161). -/
theorem completed_of_decode_eq_error {w : Word} {e : IllegalWord} (s : State) (h : decode w = .error e) :
    completed s w = .next (afterErr s w .illegal) :=
  engineStep_illegal (State.accept_lat s w) h

/-- Settles O5: the row a word selects is in its RSV and OP, which are what the row mask keeps; every other word is illegal. -/
theorem wordSelectsItsOpcodeRow : Obligations.WordSelectsItsOpcodeRow := by
  refine ⟨fun w op => ⟨?_, ?_⟩, fun w s _ hill => ?_⟩
  · rw [exists_decode_eq_ok_iff, fieldRSV_eq_zero_iff, Fin.ext_iff, fieldOP_val, and_assoc]
  · rw [exists_decode_eq_ok_iff, ← and_rowMask_eq_match, rowMatch_eq_ofNat, rowMask]
  · rw [← fieldOP_val, ← (fieldRSV_eq_zero_iff w).ne] at hill
    obtain ⟨e, he⟩ := exists_decode_eq_error_iff.2 hill
    exact completed_of_decode_eq_error s he

/-! ### The unused fields (R75) -/

/-- A command's outcome does not depend on the fields its opcode does not use (R75, R101). -/
theorem commandResult_latchOf_congr {w w' : Word} {i : Instr} (s : State) (W : Nat) (h : fieldsHold w i) (h' : fieldsHold w' i) :
    commandResult i W (latchOf w' s) = commandResult i W (latchOf w s) := by
  cases i <;> simp_all [fieldsHold, commandResult, nop, modred, modsub, modmul, montmul, tomont, frommont, modexp, crtcomb, crtexp]

/-- Every command but NOP uses RD (R73). -/
theorem fieldRD_congr {w w' : Word} {i : Instr} (hi : i ≠ .nop) (h : fieldsHold w i) (h' : fieldsHold w' i) :
    fieldRD w' = fieldRD w := by
  cases i with
  | nop => exact absurd rfl hi
  | _ => exact h'.1.trans h.1.symm

/-- Two words of one command complete alike, but for CMD, which holds the word accepted (R25, R75). -/
theorem exec_accept_congr {w w' : Word} {i : Instr} (s : State) (h : fieldsHold w i) (h' : fieldsHold w' i) :
    ∃ t, exec i (s.accept w) = .next t ∧ exec i (s.accept w') = .next { t with cmd := w' } := by
  refine ⟨_, exec_accept i s w, ?_⟩
  rw [exec_accept, commandResult_latchOf_congr s _ h h']
  cases hout : commandResult i s.cfg.width (latchOf w s) with
  | ok v =>
    rw [State.complete_ok, latchOf_d, fieldRD_congr (ne_nop_of_commandResult_ok hout) h h']
    rfl
  | okNone => rfl
  | err e => rfl

/-- Settles O6: a word decodes by its masked value, its completion reads only the used fields, and the assembler's word is its own
masked value. -/
theorem unusedFieldsAreIgnored : Obligations.UnusedFieldsAreIgnored := by
  refine ⟨fun w w' i s hw hmask => ?_, fun i => ?_⟩
  · have hw' : decode w' = .ok i := by
      rw [← and_usedMask_eq_encode_iff, ← hmask, and_usedMask_eq_encode_iff, hw]
    obtain ⟨-, -, hf⟩ := decode_eq_ok_iff.1 hw
    obtain ⟨-, -, hf'⟩ := decode_eq_ok_iff.1 hw'
    exact ⟨hw', exec_accept_congr s hf hf'⟩
  · have hkept : encode i &&& i.usedMask = encode i := and_usedMask_eq_encode_iff.2 (decode_encode i)
    rw [← hkept, BitVec.and_assoc, BitVec.and_not_self]
    exact BitVec.and_zero

end Sys2Proof.Proofs
end

section
/-!
Issue and WAIT of R83 and R84 as a run: the polls of a WAIT are so many STATUS reads, which change nothing but what the host
has been answered, and a completion does the same whatever the model's own fields hold.
-/

namespace Sys2Proof.Proofs

open Sys2Proof.Machine Sys2Proof.Claims

/-- Bit 0 of STATUS is BUSY (R26). -/
theorem statusWord_getLsbD_zero (s : State) : s.statusWord.getLsbD 0 = s.busy := by
  rw [State.statusWord, BitVec.getLsbD_append]
  cases s.busy <;> rfl

/-- STATUS while the command just accepted is in flight: BUSY and OVR, no error (R26, R36). -/
theorem statusWord_accept (s : State) (w : Word) : (s.accept w).statusWord = BitVec.ofNat 32 (1 + 4 * bit s.ovr) := by
  apply BitVec.eq_of_toNat_eq
  rw [statusWord_toNat]
  cases h : s.ovr <;> simp [h, bit, codeOf]

/-- One STATUS read (R26, R60): the host is answered STATUS, and nothing else changes. -/
theorem step_readStatus {s : State} {rest : List Event} (h : s.agenda = readStatus s.cfg :: rest) :
    step s = .next { s with agenda := rest, hostLog := .okayRead s.statusWord :: s.hostLog } :=
  step_read h (by decide) (by decide)

/-- The polls of a WAIT: each is answered the same STATUS (R83; log 19). -/
theorem run_polls (polls k : Nat) {s : State} {rest : List Event} (h : s.agenda = List.replicate polls (readStatus s.cfg) ++ rest) :
    Sys2Proof.core.run (polls + k) s =
      Sys2Proof.core.run k { s with
        agenda := rest, hostLog := List.replicate polls (.okayRead s.statusWord) ++ s.hostLog } := by
  induction polls generalizing s with
  | zero =>
    obtain rfl : s.agenda = rest := h
    rw [Nat.zero_add]
    rfl
  | succ n ih =>
    rw [Nat.succ_add, core_run_succ (step_readStatus h), ih rfl, List.replicate_succ', List.append_assoc]
    rfl

/-- A completion neither reads nor changes the turns to come and the answers given (R166). -/
theorem complete_agenda_hostLog (s : State) (l : Latch) (out : CmdResult) (es : List Event) (rs : List Response) :
    State.complete { s with agenda := es, hostLog := rs } l out = { s.complete l out with agenda := es, hostLog := rs } := by
  cases out <;> rfl

/-- The engine's turn on the word of a command: its completion, with the turn taken (R166). -/
theorem step_completion {s : State} {l : Latch} {i : Instr} {rest : List Event} (hl : s.lat = some l) (hd : decode l.word = .ok i)
    (ha : s.agenda = .engine :: rest) :
    step s = .next { s.complete l (commandResult i s.cfg.width l) with agenda := rest } := by
  rw [step_engine ha, engineStep_ok (s := { s with agenda := rest }) hl hd, exec_inFlight (s := { s with agenda := rest }) i hl]
  cases commandResult i s.cfg.width l <;> rfl

/-- A WAIT on the command in flight: its polls read STATUS before the completion, its last read after it (R83; log 19). -/
theorem run_wait {s : State} {l : Latch} {i : Instr} {polls : Nat} {rest : List Event} (hl : s.lat = some l)
    (hd : decode l.word = .ok i) (ha : s.agenda = HostOp.events s.cfg (.wait polls) ++ rest) :
    Sys2Proof.core.run (polls + 2) s = .next { s.complete l (commandResult i s.cfg.width l) with
      agenda := rest
      hostLog := .okayRead (s.complete l (commandResult i s.cfg.width l)).statusWord ::
        (List.replicate polls (.okayRead s.statusWord) ++ s.hostLog) } := by
  rw [HostOp.events, List.append_assoc] at ha
  have hturn := step_completion (s := { s with
    agenda := .engine :: readStatus s.cfg :: rest
    hostLog := List.replicate polls (.okayRead s.statusWord) ++ s.hostLog }) hl hd rfl
  rw [complete_agenda_hostLog] at hturn
  refine (run_polls polls 2 ha).trans ((core_run_succ (k := 1) hturn).trans (core_run_succ (k := 0) (step_readStatus ?_)))
  simp [readStatus]

/-- The issue of a word to an idle block is its acceptance, answered OKAY (R25, R36, R84). -/
theorem step_issue {s : State} {w : Word} {rest : List Event} (hb : s.busy = false) (ha : s.agenda = issue s.cfg w :: rest) :
    step s = .next { s.accept w with agenda := rest, hostLog := .okayWrite :: s.hostLog } := by
  rw [step_write ha (by decide) (by decide), targetOf_cmd, State.writeTarget, State.writeCmd, State.busy_agenda, hb]
  rfl

/-- Settles O52: `step_issue` accepts the command, and `run_wait` runs the rest. -/
theorem issueAndWaitDeliversTheResult : Obligations.IssueAndWaitDeliversTheResult := by
  intro s i polls rest hb ha
  have hissue : s.agenda = issue s.cfg (encode i) :: (HostOp.events s.cfg (.wait polls) ++ rest) := by
    simpa [programEvents, HostOp.events] using ha
  have hrun := (core_run_succ (k := polls + 2) (step_issue hb hissue)).trans (run_wait rfl (decode_encode i) rfl)
  rw [complete_agenda_hostLog] at hrun
  refine ⟨{ (s.accept (encode i)).complete (latchOf (encode i) s) (commandResult i s.cfg.width (latchOf (encode i) s)) with
    agenda := rest, hostLog := s.hostLog }, ?_, ?_, ?_⟩
  · exact (exec_accept i _ _).trans (congrArg _ (complete_agenda_hostLog (s.accept (encode i)) _ _ rest s.hostLog))
  · rw [← statusWord_accept s (encode i)]
    exact hrun
  · exact (statusWord_getLsbD_zero _).trans (State.complete_busy _ _ _)

end Sys2Proof.Proofs
end

section
/-!
NOP of 40_control.md. The row mask selects a command by OP and RSV alone (`decode_of_rowMatch`), and a completion with `OK(none)`
leaves every operand register and every mark as it was (`exec_accept_of_okNone`).
-/

namespace Sys2Proof.Proofs

open Sys2Proof.Machine Sys2Proof.Claims

/-- A word in the row of a command's opcode, with the command's registers in its used fields, decodes to the command (R74). -/
theorem decode_of_rowMatch {w : Word} {i : Instr} (hrow : w &&& rowMask = rowMatch i.opcode) (hf : fieldsHold w i) :
    decode w = .ok i := by
  obtain ⟨hrsv, hop⟩ := (and_rowMask_eq_match w i.opcode).1 hrow
  exact decode_eq_ok_iff.2 ⟨hrsv, hop, hf⟩

/-- A command that ends with `OK(none)` leaves, after its acceptance, the state R36 and R166 give it (R101). -/
theorem exec_accept_of_okNone {i : Instr} {s : State} {w : Word} (h : commandResult i s.cfg.width (latchOf w s) = .okNone) :
    exec i (s.accept w) = .next (afterOkNone s w) := by
  rw [exec_accept, h, State.complete_okNone]
  rfl

/-- Settles O8: the row of opcode 0 decodes to NOP whatever its other fields hold, and NOP's outcome is `OK(none)`. -/
theorem nopOnlyCompletes : Obligations.NopOnlyCompletes := by
  refine ⟨fun s w _ hrow => ⟨decode_of_rowMatch hrow trivial, exec_accept_of_okNone rfl⟩, fun w hrsv hd => ?_⟩
  obtain ⟨hzero, -, -⟩ := decode_eq_ok_iff.1 hd
  exact hrsv hzero

end Sys2Proof.Proofs
end

section
/-!
The modular commands of 41_modular.md. A completion with `OK(v)` or with an error leaves, after the acceptance of its word, the state
that R36 and R166 give it (`exec_accept_of_ok`, `exec_accept_of_err`), so each command needs only the outcome of its function on the
latch: ZMOD for N = 0, else the value of its rule. The value MODSUB writes is pinned by `modZ_lt` and `dvd_sub_modZ`.
-/

namespace Sys2Proof.Proofs

open Sys2Proof.Machine Sys2Proof.Claims

/-- A command that ends with `OK(v)` leaves, after its acceptance, the state R36 and R166 give it (R101). -/
theorem exec_accept_of_ok {i : Instr} {s : State} {w : Word} {v : Nat}
    (h : commandResult i s.cfg.width (latchOf w s) = .ok v) : exec i (s.accept w) = .next (afterOk s w (fieldRD w) v) := by
  rw [exec_accept, h, State.complete_ok]
  rfl

/-- A command that ends with an error leaves, after its acceptance, the state R36, R166 and R168 give it (R101). -/
theorem exec_accept_of_err {i : Instr} {s : State} {w : Word} {e : CmdError}
    (h : commandResult i s.cfg.width (latchOf w s) = .err e) : exec i (s.accept w) = .next (afterErr s w e) := by
  rw [exec_accept, h, State.complete_err]
  rfl

/-- An integer and its floor remainder differ by a multiple of the modulus (R12). -/
theorem dvd_sub_modZ (a : Int) {N : Nat} (hN : 0 < N) : (N : Int) ∣ a - modZ a N := by
  rw [modZ_cast a hN]
  exact Int.dvd_self_sub_emod

/-- Settles O9: `modred_ok` and `modred_zmod` are the two outcomes. -/
theorem modredWritesTheRemainder : Obligations.ModredWritesTheRemainder := by
  rintro s w _ _ _ _ hrow rfl rfl rfl
  exact ⟨decode_of_rowMatch hrow ⟨rfl, rfl, rfl⟩, fun hN => exec_accept_of_ok (modred_ok hN),
    fun hN => exec_accept_of_err (modred_zmod hN)⟩

/-- Settles O10: the value written is the floor remainder of the integer difference, in range and congruent to it. -/
theorem modsubWritesTheNormalisedDifference : Obligations.ModsubWritesTheNormalisedDifference := by
  rintro s w _ _ _ _ _ hrow rfl rfl rfl rfl
  refine ⟨decode_of_rowMatch hrow ⟨rfl, rfl, rfl, rfl⟩, fun hN => ?_, fun hN => exec_accept_of_err (modsub_zmod hN)⟩
  have hpos : 0 < s.x (fieldRN w) := Nat.pos_of_ne_zero hN
  exact ⟨_, exec_accept_of_ok (modsub_ok hN), modZ_lt _ hpos, dvd_sub_modZ _ hpos⟩

/-- Settles O11: `modmul_ok` and `modmul_zmod` are the two outcomes. -/
theorem modmulWritesTheProductRemainder : Obligations.ModmulWritesTheProductRemainder := by
  rintro s w _ _ _ _ _ hrow rfl rfl rfl rfl
  exact ⟨decode_of_rowMatch hrow ⟨rfl, rfl, rfl, rfl⟩, fun hN => exec_accept_of_ok (modmul_ok hN),
    fun hN => exec_accept_of_err (modmul_zmod hN)⟩

end Sys2Proof.Proofs
end

section
/-!
The Montgomery commands of 42_montgomery.md. For odd N the radix 2^W has an inverse in [0, N), and every Montgomery product is taken
with that one inverse (`montgomery_eq_of_odd`); the laws of R122 and the round trip of R126 are its cancellation against the radix
(`mul_mul_inverse_modEq`).
-/

namespace Sys2Proof.Proofs

open Sys2Proof.Machine Sys2Proof.Claims

/-! ### The three commands (R121, R123, R125) -/

/-- Settles O12: `montmul_ok` is the outcome for odd N, and the modulus check gives the two errors. -/
theorem montmulWritesTheMontgomeryProduct : Obligations.MontmulWritesTheMontgomeryProduct := by
  rintro s w _ _ _ _ _ hrow rfl rfl rfl rfl
  refine ⟨decode_of_rowMatch hrow ⟨rfl, rfl, rfl, rfl⟩, fun hodd => ?_,
    fun hzero => exec_accept_of_err (withOddModulus_zmod _ hzero),
    fun hne heven => exec_accept_of_err (withOddModulus_evenmod _ hne heven)⟩
  obtain ⟨rinv, hlt, hmul, hok⟩ := montmul_ok (l := latchOf w s) (W := s.cfg.width) hodd
  exact ⟨rinv, ⟨hlt, hmul⟩, exec_accept_of_ok hok⟩

/-- Settles O13: `tomont_ok` is the outcome for odd N, and the modulus check gives the two errors. -/
theorem tomontWritesTheMontgomeryForm : Obligations.TomontWritesTheMontgomeryForm := by
  rintro s w _ _ _ _ hrow rfl rfl rfl
  exact ⟨decode_of_rowMatch hrow ⟨rfl, rfl, rfl⟩, fun hodd => exec_accept_of_ok (tomont_ok hodd),
    fun hzero => exec_accept_of_err (withOddModulus_zmod (some _) hzero),
    fun hne heven => exec_accept_of_err (withOddModulus_evenmod (some _) hne heven)⟩

/-- Settles O14: `frommont_ok` is the outcome for odd N, and the modulus check gives the two errors. -/
theorem frommontWritesTheValueOfTheForm : Obligations.FrommontWritesTheValueOfTheForm := by
  rintro s w _ _ _ _ hrow rfl rfl rfl
  refine ⟨decode_of_rowMatch hrow ⟨rfl, rfl, rfl⟩, fun hodd => ?_,
    fun hzero => exec_accept_of_err (withOddModulus_zmod _ hzero),
    fun hne heven => exec_accept_of_err (withOddModulus_evenmod _ hne heven)⟩
  obtain ⟨rinv, hlt, hmul, hok⟩ := frommont_ok (l := latchOf w s) (W := s.cfg.width) hodd
  exact ⟨rinv, ⟨hlt, hmul⟩, exec_accept_of_ok hok⟩

/-! ### The four laws (R122) -/

/-- A factor and its inverse cancel modulo N. -/
theorem mul_mul_inverse_modEq {v R N : Nat} (h : isInverse v R N) (x : Nat) : x * R * v ≡ x [MOD N] := by
  obtain ⟨-, hmul⟩ := h
  have hcancel : x * (R * v) ≡ x * 1 [MOD N] := Nat.ModEq.mul_left x hmul
  rwa [← mul_assoc, mul_one] at hcancel

/-- For odd N, one inverse of the radix serves every Montgomery product (R16, R120). -/
theorem montgomery_eq_of_odd (W : Nat) {N : Nat} (h : N % 2 = 1) :
    ∃ rinv, isInverse rinv (2 ^ W) N ∧ ∀ a b, montgomery W a b N = some (a * b * rinv % N) := by
  obtain ⟨rinv, hr, hlt, hmul⟩ := montRinv_spec W h
  exact ⟨rinv, ⟨hlt, hmul⟩, fun a b => by rw [montgomery, hr]⟩

/-- The product of two Montgomery forms is the form of the product: one radix of the two cancels. -/
theorem form_mul_form_mod {v R N : Nat} (h : isInverse v R N) (a b : Nat) :
    (a * R % N) * (b * R % N) * v % N = a * b * R % N :=
  calc
    (a * R % N) * (b * R % N) * v ≡ (a * R) * (b * R) * v [MOD N] :=
      ((Nat.mod_modEq _ _).mul (Nat.mod_modEq _ _)).mul_right v
    _ = a * b * R * R * v := by ring
    _ ≡ a * b * R [MOD N] := mul_mul_inverse_modEq h _

/-- The product with the square of the radix is the Montgomery form. -/
theorem mul_radixSquare_mod {v R N : Nat} (h : isInverse v R N) (a : Nat) : a * (R * R % N) * v % N = a * R % N :=
  calc
    a * (R * R % N) * v ≡ a * (R * R) * v [MOD N] := ((Nat.mod_modEq _ _).mul_left a).mul_right v
    _ = a * R * R * v := by ring
    _ ≡ a * R [MOD N] := mul_mul_inverse_modEq h _

/-- The Montgomery form times the inverse of the radix is the value of the form. -/
theorem form_mul_inverse_mod {v R N : Nat} (h : isInverse v R N) (a : Nat) : (a * R % N) * v % N = a % N :=
  ((Nat.mod_modEq (a * R) N).mul_right v).trans (mul_mul_inverse_modEq h a)

/-- Settles O55: every product is taken with the one inverse of the radix, which cancels against a radix of the operands. -/
theorem montgomeryLawsHold : Obligations.MontgomeryLawsHold := by
  intro W a b N hodd
  obtain ⟨rinv, hinv, hmont⟩ := montgomery_eq_of_odd W hodd
  simp only [hmont, Option.some.injEq]
  refine ⟨form_mul_form_mod hinv a b, mul_radixSquare_mod hinv a, ⟨rinv, hinv, ?_⟩, ?_, ?_⟩
  · rw [mul_one]
  · rw [mul_comm a b]
  · rw [Nat.mul_mod (a * b), Nat.mul_mod a b, ← Nat.mul_mod]

/-! ### The round trip (R126) -/

@[simp] theorem afterOk_cfg (s : State) (w : Word) (d : Reg) (v : Nat) : (afterOk s w d v).cfg = s.cfg := rfl
@[simp] theorem afterOk_lat (s : State) (w : Word) (d : Reg) (v : Nat) : (afterOk s w d v).lat = none := rfl
@[simp] theorem afterOk_errcode (s : State) (w : Word) (d : Reg) (v : Nat) : (afterOk s w d v).errcode = none := rfl

@[simp] theorem x_afterOk (s : State) (w : Word) (d : Reg) (v : Nat) (r : Reg) :
    (afterOk s w d v).x r = if r = d then v else s.x r :=
  State.x_setX s d r v

/-- The assembler's word holds the command's registers in the fields its opcode uses (R78, R80). -/
theorem fieldsHold_encode (i : Instr) : fieldsHold (encode i) i := by
  obtain ⟨-, -, hf⟩ := decode_eq_ok_iff.1 (decode_encode i)
  exact hf

/-- The assembler's word is in the row of the command's opcode (R74, R80). -/
theorem encode_and_rowMask (i : Instr) : encode i &&& rowMask = rowMatch i.opcode := by
  obtain ⟨hrsv, hop, -⟩ := decode_eq_ok_iff.1 (decode_encode i)
  exact (and_rowMask_eq_match _ _).2 ⟨hrsv, hop⟩

/-- The engine completes the assembler's word of a command as `exec` does (R78, R166). -/
theorem completed_encode (s : State) (i : Instr) : completed s (encode i) = exec i (s.accept (encode i)) :=
  engineStep_ok (State.accept_lat s (encode i)) (decode_encode i)

/-- TOMONT of the assembler's word, for odd N (R123). -/
theorem completed_tomont {s : State} {n : Reg} (hidle : s.lat = none) (hodd : s.x n % 2 = 1) (d a : Reg) :
    completed s (encode (.tomont d a n)) =
      .next (afterOk s (encode (.tomont d a n)) d (s.x a * 2 ^ s.cfg.width % s.x n)) := by
  obtain ⟨hd, ha, hn⟩ := fieldsHold_encode (.tomont d a n)
  obtain ⟨-, hok, -, -⟩ := tomontWritesTheMontgomeryForm s _ d a n hidle (encode_and_rowMask _) hd.symm ha.symm hn.symm
  rw [completed_encode, hok hodd]

/-- FROMMONT of the assembler's word, for odd N (R125). -/
theorem completed_frommont {s : State} {n : Reg} (hidle : s.lat = none) (hodd : s.x n % 2 = 1) (d a : Reg) :
    ∃ rinv, isInverse rinv (2 ^ s.cfg.width) (s.x n) ∧
      completed s (encode (.frommont d a n)) = .next (afterOk s (encode (.frommont d a n)) d (s.x a * rinv % s.x n)) := by
  obtain ⟨hd, ha, hn⟩ := fieldsHold_encode (.frommont d a n)
  obtain ⟨-, hok, -, -⟩ := frommontWritesTheValueOfTheForm s _ d a n hidle (encode_and_rowMask _) hd.symm ha.symm hn.symm
  rw [completed_encode]
  exact hok hodd

/-- Settles O56: the first command keeps N, so the second takes the inverse of the same radix, and the two cancel. -/
theorem montgomeryFormRoundTrip : Obligations.MontgomeryFormRoundTrip := by
  intro s d a n d' hidle hodd hdn
  have hto := completed_tomont hidle hodd d a
  set t := afterOk s (encode (.tomont d a n)) d (s.x a * 2 ^ s.cfg.width % s.x n) with ht
  have htd : t.x d = s.x a * 2 ^ s.cfg.width % s.x n := by simp [ht]
  have htn : t.x n = s.x n := by simp [ht, hdn.symm]
  obtain ⟨rinv, hinv, hfrom⟩ := completed_frommont (s := t) (afterOk_lat ..) (htn ▸ hodd) d' d
  rw [htn, ht, afterOk_cfg] at hinv
  refine ⟨t, _, hto, hfrom, afterOk_errcode .., ?_⟩
  rw [x_afterOk, if_pos rfl, htd, htn]
  exact form_mul_inverse_mod hinv (s.x a)

end Sys2Proof.Proofs
end

section
/-!
Modular exponentiation, 43_modexp.md. The model computes by squaring; `powmod_eq` makes that the exact power for every base, exponent and
modulus, which is what `modexp_ok` says of the latch.
-/

namespace Sys2Proof.Proofs

open Sys2Proof.Machine Sys2Proof.Claims

/-- Settles O15: for N ≠ 0 the outcome is the exact power reduced, by `modexp_ok`; the only other outcome is ZMOD, by `modexp_zmod`. -/
theorem modexpWritesTheExactPower : Obligations.ModexpWritesTheExactPower := by
  rintro s w _ _ _ _ _ hrow rfl rfl rfl rfl
  exact ⟨decode_of_rowMatch hrow ⟨rfl, rfl, rfl, rfl⟩, fun hN => exec_accept_of_ok (modexp_ok hN),
    fun hN => exec_accept_of_err (modexp_zmod hN)⟩

end Sys2Proof.Proofs
end

section
/-!
The CRT commands of 44_crt.md. Both end in the width check of an exact recombination (`exec_accept_of_fitted`), and everything the
rules derive of them is read off the recombination: with a reduced cQ it is below p * q (`crtCombine_lt_mul`), and with an inverse of q
modulo p it is the one value there that is cP modulo p and cQ modulo q (`eq_of_recombined`). Fermat's little theorem makes the reduced
exponents of CRTEXP harmless outside the excepted case of R149 (`pow_mod_sub_one_modEq`), and a valid key with odd primes is outside it
(`validKey_not_sub_one_dvd`).
-/

namespace Sys2Proof.Proofs

open Sys2Proof.Machine Sys2Proof.Claims

/-! ### The two commands (R142, R146) -/

/-- `crt_combine` is the recombination in the rule's own words (R143). -/
theorem crtCombine_cast (cP cQ q qInv : Nat) {p : Nat} (hp : 0 < p) :
    (crtCombine cP cQ p q qInv : Int) = recombined cP cQ p q qInv := by
  rw [crtCombine_eq, recombined, Nat.cast_add, Nat.cast_mul, modZ_cast _ hp]

/-- A command that ends in the width check of `m` leaves, after its acceptance, `m` or the error OVF (R166, R167). -/
theorem exec_accept_of_fitted {i : Instr} {s : State} {w : Word} {m : Nat}
    (h : commandResult i s.cfg.width (latchOf w s) = fitted s.cfg.width m) :
    (m < 2 ^ s.cfg.width → exec i (s.accept w) = .next (afterOk s w (fieldRD w) m)) ∧
      (2 ^ s.cfg.width ≤ m → exec i (s.accept w) = .next (afterErr s w .ovf)) :=
  ⟨fun hfit => exec_accept_of_ok (h.trans (fitted_ok hfit)), fun hovf => exec_accept_of_err (h.trans (fitted_ovf hovf))⟩

/-- Settles O16: ZMOD for p = 0, else the width check of `crt_combine`. -/
theorem crtcombWritesTheRecombination : Obligations.CrtcombWritesTheRecombination := by
  rintro s w _ _ _ _ _ _ _ hrow rfl rfl rfl rfl rfl rfl
  exact ⟨decode_of_rowMatch hrow ⟨rfl, rfl, rfl, rfl, rfl, rfl⟩, fun hzero => exec_accept_of_err (crtcomb_zmod hzero),
    fun hne => ⟨_, crtCombine_cast _ _ _ _ (Nat.pos_of_ne_zero hne), exec_accept_of_fitted (crtcomb_fitted hne)⟩⟩

/-- Settles O17: the two errors of steps 1 and 3, else the width check of `crt_combine` on the inverse and the exact powers. -/
theorem crtexpComputesTheFiveSteps : Obligations.CrtexpComputesTheFiveSteps := by
  rintro s w _ _ _ _ _ _ hrow rfl rfl rfl rfl rfl
  refine ⟨decode_of_rowMatch hrow ⟨rfl, rfl, rfl, rfl, rfl⟩, fun hsmall => exec_accept_of_err (crtexp_zmod hsmall),
    fun hp hq hg => exec_accept_of_err (crtexp_noinv hp hq hg), fun hp hq hg => ?_⟩
  obtain ⟨qInv, hlt, hmul, hfit⟩ := crtexp_fitted (l := latchOf w s) (W := s.cfg.width) hp hq hg
  exact ⟨qInv, _, ⟨hlt, hmul⟩, crtCombine_cast _ _ _ _ (by omega), exec_accept_of_fitted hfit⟩

/-! ### The range of the recombination (R144, R153) -/

/-- With a reduced cQ, `h <= p - 1` keeps the recombination below p * q (R144). -/
theorem crtCombine_lt_mul {p q cQ : Nat} (cP qInv : Nat) (hp : 1 ≤ p) (hcQ : cQ < q) : crtCombine cP cQ p q qInv < p * q := by
  have hh : modZ (((cP : Int) - cQ) * qInv) p + 1 ≤ p := modZ_lt _ hp
  calc crtCombine cP cQ p q qInv
      < q + modZ (((cP : Int) - cQ) * qInv) p * q := Nat.add_lt_add_right hcQ _
    _ = (modZ (((cP : Int) - cQ) * qInv) p + 1) * q := by ring
    _ ≤ p * q := Nat.mul_le_mul_right q hh

/-- The same, of a natural number that is the recombination in the rule's own words. -/
theorem lt_mul_of_recombined {p q cP cQ qInv m : Nat} (hp : 1 ≤ p) (hcQ : cQ < q) (hm : (m : Int) = recombined cP cQ p q qInv) :
    m < p * q := by
  rw [← crtCombine_cast cP cQ q qInv hp, Nat.cast_inj] at hm
  exact hm ▸ crtCombine_lt_mul cP qInv hp hcQ

/-- A completion with the width check of a value below `N` writes at most `N - 1`, and fails with OVF only, for `N` past the width. -/
theorem complete_fitted_of_lt (s : State) (l : Latch) (W : Nat) {m N : Nat} (h : m < N) :
    ((s.complete l (fitted W m)).errcode = none → (s.complete l (fitted W m)).x l.d ≤ N - 1) ∧
      ((s.complete l (fitted W m)).errcode ≠ none → (s.complete l (fitted W m)).errcode = some .ovf ∧ 2 ^ W < N) := by
  rcases lt_or_ge m (2 ^ W) with hfit | hovf
  · simpa [fitted_ok hfit] using Nat.le_sub_one_of_lt h
  · simpa [fitted_ovf hovf] using hovf.trans_lt h

/-- Settles O57: both commands end in the width check of a recombination with a reduced cQ. -/
theorem crtResultsStayBelowTheModulusProduct : Obligations.CrtResultsStayBelowTheModulusProduct := by
  constructor
  · intro s t l d a b n x y hl hp hcQ hexec
    have hfit : commandResult (.crtcomb d a b n x y) s.cfg.width l = fitted s.cfg.width _ := crtcomb_fitted (by omega)
    rw [exec_inFlight _ hl, hfit] at hexec
    cases hexec
    obtain ⟨hok, herr⟩ := complete_fitted_of_lt s l s.cfg.width (crtCombine_lt_mul l.a l.y hp hcQ)
    exact ⟨hok, fun hne => (herr hne).2⟩
  · intro s t l d a b n x hl hp hq hg hexec
    obtain ⟨qInv, -, -, hfit⟩ := crtexp_fitted (l := l) (W := s.cfg.width) hp hq hg
    rw [exec_inFlight _ hl, show commandResult (.crtexp d a b n x) s.cfg.width l = _ from hfit] at hexec
    cases hexec
    exact complete_fitted_of_lt s l s.cfg.width (crtCombine_lt_mul _ qInv (by omega) (Nat.mod_lt _ (by omega)))

/-! ### The commands by the assembler's words -/

section Completed
variable {s : State} (hidle : s.lat = none)
include hidle

/-- MODEXP of the assembler's word (R130). -/
theorem completed_modexp {n : Reg} (hn : s.x n ≠ 0) (d a b : Reg) :
    completed s (encode (.modexp d a b n)) = .next (afterOk s (encode (.modexp d a b n)) d (s.x a ^ s.x b % s.x n)) := by
  obtain ⟨hd, ha, hb, hN⟩ := fieldsHold_encode (.modexp d a b n)
  obtain ⟨-, hok, -⟩ :=
    modexpWritesTheExactPower s _ d a b n hidle (encode_and_rowMask _) hd.symm ha.symm hb.symm hN.symm
  rw [completed_encode, hok hn]

/-- CRTCOMB of the assembler's word, for p ≠ 0 (R142). -/
theorem completed_crtcomb {p : Reg} (hp : s.x p ≠ 0) (d a b q y : Reg) :
    ∃ m : Nat, (m : Int) = recombined (s.x a) (s.x b) (s.x p) (s.x q) (s.x y) ∧
      (m < 2 ^ s.cfg.width →
        completed s (encode (.crtcomb d a b p q y)) = .next (afterOk s (encode (.crtcomb d a b p q y)) d m)) ∧
      (2 ^ s.cfg.width ≤ m →
        completed s (encode (.crtcomb d a b p q y)) = .next (afterErr s (encode (.crtcomb d a b p q y)) .ovf)) := by
  obtain ⟨hd, ha, hb, hn, hx, hy⟩ := fieldsHold_encode (.crtcomb d a b p q y)
  obtain ⟨-, -, hm⟩ := crtcombWritesTheRecombination s _ d a b p q y hidle (encode_and_rowMask _)
    hd.symm ha.symm hb.symm hn.symm hx.symm hy.symm
  rw [completed_encode]
  exact hm hp

/-- CRTEXP of the assembler's word, for coprime p and q above 1 (R146). -/
theorem completed_crtexp {p q : Reg} (hp : 1 < s.x p) (hq : 1 < s.x q) (hg : Nat.gcd (s.x q) (s.x p) = 1) (d1 c d : Reg) :
    ∃ qInv m : Nat, isInverse qInv (s.x q) (s.x p) ∧
      (m : Int) = recombined (s.x c ^ (s.x d % (s.x p - 1)) % s.x p) (s.x c ^ (s.x d % (s.x q - 1)) % s.x q)
        (s.x p) (s.x q) qInv ∧
      (m < 2 ^ s.cfg.width →
        completed s (encode (.crtexp d1 c d p q)) = .next (afterOk s (encode (.crtexp d1 c d p q)) d1 m)) ∧
      (2 ^ s.cfg.width ≤ m →
        completed s (encode (.crtexp d1 c d p q)) = .next (afterErr s (encode (.crtexp d1 c d p q)) .ovf)) := by
  obtain ⟨hd, ha, hb, hn, hx⟩ := fieldsHold_encode (.crtexp d1 c d p q)
  obtain ⟨-, -, -, hm⟩ := crtexpComputesTheFiveSteps s _ d1 c d p q hidle (encode_and_rowMask _)
    hd.symm ha.symm hb.symm hn.symm hx.symm
  rw [completed_encode]
  exact hm hp hq hg

end Completed

@[simp] theorem afterErr_errcode (s : State) (w : Word) (e : CmdError) : (afterErr s w e).errcode = some e := rfl

/-- Settles O60: the inverse of q modulo p is unique, so both commands check the width of the same recombination. -/
theorem cachedAndRecomputedCrtAgree : Obligations.CachedAndRecomputedCrtAgree := by
  intro s d1 c d p q d2 a b y hidle hp hq hcP hcQ hinv
  obtain ⟨qInv, m, hinv', hm, hexpOk, hexpOvf⟩ := completed_crtexp hidle hp hq (gcd_eq_one_of_isInverse hinv) d1 c d
  obtain ⟨m', hm', hcombOk, hcombOvf⟩ := completed_crtcomb hidle (by omega : s.x p ≠ 0) d2 a b q y
  obtain rfl : qInv = s.x y := isInverse_unique hinv' hinv
  rw [← hcP, ← hcQ] at hm
  obtain rfl : m = m' := by exact_mod_cast hm.trans hm'.symm
  rcases lt_or_ge m (2 ^ s.cfg.width) with hfit | hovf
  · exact ⟨_, _, hexpOk hfit, hcombOk hfit, by simp⟩
  · exact ⟨_, _, hexpOvf hovf, hcombOvf hovf, by simp⟩

/-! ### The recombination is the Chinese remainder (R149) -/

/-- The recombination with an inverse of q modulo p is cP modulo p: `h * q` is `cP - cQ` there. -/
theorem recombined_modEq_cP {p q qInv : Nat} (hinv : isInverse qInv q p) (cP cQ : Nat) :
    recombined cP cQ p q qInv ≡ cP [ZMOD p] := by
  obtain ⟨-, hmul⟩ := hinv
  have hone : (q : Int) * qInv ≡ 1 [ZMOD p] := by exact_mod_cast Int.natCast_modEq_iff.2 hmul
  calc recombined cP cQ p q qInv
      ≡ cQ + ((cP : Int) - cQ) * qInv * q [ZMOD p] := ((Int.mod_modEq _ _).mul_right _).add_left _
    _ = cQ + ((cP : Int) - cQ) * (q * qInv) := by ring
    _ ≡ cQ + ((cP : Int) - cQ) * 1 [ZMOD p] := (hone.mul_left _).add_left _
    _ = cP := by ring

/-- The recombination is cQ modulo q. -/
theorem recombined_modEq_cQ (cP cQ p q qInv : Nat) : recombined cP cQ p q qInv ≡ cQ [ZMOD q] :=
  Int.add_mul_modulus_modEq_iff.2 rfl

/-- The recombination is the one value below p * q that is cP modulo p and cQ modulo q. -/
theorem eq_of_recombined {p q qInv cP cQ m v : Nat} (hinv : isInverse qInv q p) (hlt : m < p * q)
    (hm : (m : Int) = recombined cP cQ p q qInv) (hv : v < p * q) (hP : cP ≡ v [MOD p]) (hQ : cQ ≡ v [MOD q]) : m = v := by
  have hmP : m ≡ cP [MOD p] := Int.natCast_modEq_iff.1 (hm ▸ recombined_modEq_cP hinv cP cQ)
  have hmQ : m ≡ cQ [MOD q] := Int.natCast_modEq_iff.1 (hm ▸ recombined_modEq_cQ cP cQ p q qInv)
  have hcop : Nat.Coprime p q := Nat.Coprime.symm (gcd_eq_one_of_isInverse hinv)
  exact ((Nat.modEq_and_modEq_iff_modEq_mul hcop).1 ⟨hmP.trans hP, hmQ.trans hQ⟩).eq_of_lt_of_lt hlt hv

/-! ### The exponents of step 1 (R149) -/

/-- Modulo a prime p, exponents that differ by a multiple of p - 1 give the same power of every base, as long as neither is 0. -/
theorem pow_modEq_pow {p x y : Nat} (hp : p.Prime) (hdvd : p - 1 ∣ x - y) (hle : y ≤ x) (hy : 0 < y) (c : Nat) :
    c ^ x ≡ c ^ y [MOD p] := by
  have hint := Int.ModEq.pow_eq_pow hp hdvd hle hy (c : Int)
  exact_mod_cast hint

/-- Modulo a prime p, the exponent may be reduced by p - 1, unless that makes an exponent 0 of a base that p divides (R149). -/
theorem pow_mod_sub_one_modEq {p c d : Nat} (hp : p.Prime) (hexc : ¬ (p ∣ c ∧ 0 < d ∧ (p - 1) ∣ d)) :
    c ^ (d % (p - 1)) ≡ c ^ d [MOD p] := by
  rcases Nat.eq_zero_or_pos (d % (p - 1)) with hzero | hpos
  · obtain ⟨k, rfl⟩ := Nat.dvd_of_mod_eq_zero hzero
    rcases Nat.eq_zero_or_pos ((p - 1) * k) with hd | hd
    · simp [hd, Nat.ModEq.refl]
    · have hcop : c.Coprime p := Nat.Coprime.symm (hp.coprime_iff_not_dvd.2 fun hc => hexc ⟨hc, hd, dvd_mul_right _ _⟩)
      have hfermat := (Nat.ModEq.pow_card_sub_one_eq_one hp hcop).pow k
      rw [hzero, pow_zero, pow_mul]
      simpa using hfermat.symm
  · exact (pow_modEq_pow hp (Nat.dvd_sub_mod d) (Nat.mod_le _ _) hpos c).symm

/-- The two values of R149 agree: for primes p and q, outside the excepted cases, the recombination is the direct power. -/
theorem recombined_powers_eq_pow {p q qInv c d m : Nat} (hp : p.Prime) (hq : q.Prime) (hinv : isInverse qInv q p)
    (hlt : m < p * q) (hm : (m : Int) = recombined (c ^ (d % (p - 1)) % p) (c ^ (d % (q - 1)) % q) p q qInv)
    (hexcP : ¬ (p ∣ c ∧ 0 < d ∧ (p - 1) ∣ d)) (hexcQ : ¬ (q ∣ c ∧ 0 < d ∧ (q - 1) ∣ d)) : m = c ^ d % (p * q) := by
  have hdirect : c ^ d % (p * q) ≡ c ^ d [MOD p * q] := Nat.mod_modEq _ _
  refine eq_of_recombined hinv hlt hm (Nat.mod_lt _ (Nat.mul_pos hp.pos hq.pos)) ?_ ?_
  · exact ((Nat.mod_modEq _ _).trans (pow_mod_sub_one_modEq hp hexcP)).trans (hdirect.of_mul_right q).symm
  · exact ((Nat.mod_modEq _ _).trans (pow_mod_sub_one_modEq hq hexcQ)).trans (hdirect.of_mul_left p).symm

/-- Settles O58: distinct primes are coprime, the recombination is below p * q and so fits, and it is the direct power. -/
theorem crtexpEqualsModexp : Obligations.CrtexpEqualsModexp := by
  intro s d1 c d p q d2 n hidle hp hq hne hn hfit
  have hg : Nat.gcd (s.x q) (s.x p) = 1 := (Nat.coprime_primes hq hp).2 hne.symm
  obtain ⟨qInv, m, hinv, hm, hok, -⟩ := completed_crtexp hidle hp.one_lt hq.one_lt hg d1 c d
  have hlt : m < s.x p * s.x q := lt_mul_of_recombined hp.one_le (Nat.mod_lt _ hq.pos) hm
  have hpos : s.x n ≠ 0 := hn ▸ (Nat.mul_pos hp.pos hq.pos).ne'
  refine ⟨_, _, hok ((hn ▸ hlt).trans hfit), completed_modexp hidle hpos d2 c d, rfl, rfl, fun hexcP hexcQ => ?_⟩
  simpa [hn] using recombined_powers_eq_pow hp hq hinv hlt hm hexcP hexcQ

/-! ### The round trip of a valid key (R131, R150) -/

section ValidKey
variable {p q e d : Nat} (key : ValidKey p q e d)
include key

/-- The roles of p and q in a valid key can be exchanged. -/
theorem validKey_swap : ValidKey q p e d where
  p_prime := key.q_prime
  q_prime := key.p_prime
  distinct := key.distinct.symm
  e_coprime := Nat.lcm_comm (p - 1) (q - 1) ▸ key.e_coprime
  inverse := Nat.lcm_comm (p - 1) (q - 1) ▸ key.inverse

/-- e * d is 1 modulo lcm(p - 1, q - 1), hence modulo p - 1: p - 1 divides what is left of it above 1. -/
theorem validKey_sub_one_dvd : 1 ≤ e * d ∧ p - 1 ∣ e * d - 1 := by
  have hmod := key.inverse
  have hle : 1 ≤ e * d := hmod ▸ Nat.mod_le _ _
  have hlcm : Nat.lcm (p - 1) (q - 1) ∣ e * d - 1 := by
    have hdvd := Nat.dvd_sub_mod (n := Nat.lcm (p - 1) (q - 1)) (e * d)
    rwa [hmod] at hdvd
  exact ⟨hle, (Nat.dvd_lcm_left _ _).trans hlcm⟩

/-- For odd p, p - 1 does not divide d: it would divide both e * d and e * d - 1 (R149). -/
theorem validKey_not_sub_one_dvd (hodd : p % 2 = 1) : ¬ (p - 1) ∣ d := by
  intro hdvd
  obtain ⟨hle, hpred⟩ := validKey_sub_one_dvd key
  have hone : p - 1 ∣ 1 := (Nat.dvd_sub_iff_right hle (hdvd.mul_left e)).1 hpred
  have htwo : p - 1 = 1 := Nat.dvd_one.1 hone
  omega

/-- Encrypting and decrypting gives back every residue modulo p. -/
theorem validKey_pow_modEq (m : Nat) : m ^ (e * d) ≡ m [MOD p] := by
  obtain ⟨hle, hpred⟩ := validKey_sub_one_dvd key
  simpa using pow_modEq_pow key.p_prime hpred hle one_pos m

/-- Encrypting and decrypting gives back every value below the modulus. -/
theorem validKey_decrypt_encrypt {m : Nat} (hm : m < p * q) : (m ^ e % (p * q)) ^ d % (p * q) = m := by
  have hcop : Nat.Coprime p q := (Nat.coprime_primes key.p_prime key.q_prime).2 key.distinct
  have hround : m ^ (e * d) ≡ m [MOD p * q] := (Nat.modEq_and_modEq_iff_modEq_mul hcop).1
    ⟨validKey_pow_modEq key m, validKey_pow_modEq (validKey_swap key) m⟩
  rw [← Nat.pow_mod, ← pow_mul]
  exact Nat.mod_eq_of_modEq hround hm

end ValidKey

/-- Settles O59: the first command keeps the key, MODEXP decrypts by `validKey_decrypt_encrypt`, and CRTEXP agrees with it (O58), since
odd primes of a valid key are outside the excepted cases. -/
theorem rsaRoundTrip : Obligations.RsaRoundTrip := by
  intro s rc rm re rd rp rq rn r1 r2 hidle key hn hfit hm hcd hcp hcq hcn
  have hpos : s.x rn ≠ 0 := by omega
  have hkeep (r : Reg) (hr : rc ≠ r) (w : Word) (v : Nat) : (afterOk s w rc v).x r = s.x r := by simp [hr.symm]
  have henc := completed_modexp hidle hpos rc rm re
  set t := afterOk s (encode (.modexp rc rm re rn)) rc (s.x rm ^ s.x re % s.x rn)
  have htc : t.x rc = s.x rm ^ s.x re % s.x rn := by simp [t]
  have htd : t.x rd = s.x rd := hkeep rd hcd _ _
  have htp : t.x rp = s.x rp := hkeep rp hcp _ _
  have htq : t.x rq = s.x rq := hkeep rq hcq _ _
  have htn : t.x rn = s.x rn := hkeep rn hcn _ _
  obtain ⟨v, u, hcrt, hdec, hv, hu, hagree⟩ := crtexpEqualsModexp t r2 rc rd rp rq r1 rn (afterOk_lat ..)
    (htp ▸ key.p_prime) (htq ▸ key.q_prime) (by rw [htp, htq]; exact key.distinct) (by rw [htp, htq, htn, hn]) (htn ▸ hfit)
  have hplain : u.x r1 = s.x rm := by
    rw [completed_modexp (s := t) (afterOk_lat ..) (by rwa [htn])] at hdec
    cases hdec
    rw [x_afterOk, if_pos rfl, htc, htd, htn, hn]
    exact validKey_decrypt_encrypt key (hn ▸ hm)
  refine ⟨t, u, v, henc, hdec, hu, hplain, hcrt, hv, fun hoddp hoddq => ?_⟩
  rw [htp, htq, htd] at hagree
  rw [← hplain]
  exact hagree (fun ⟨_, _, hdvd⟩ => validKey_not_sub_one_dvd key hoddp hdvd)
    (fun ⟨_, _, hdvd⟩ => validKey_not_sub_one_dvd (validKey_swap key) hoddq hdvd)

end Sys2Proof.Proofs
end

section
/-!
The error codes of 60_exceptions.md. `ErrorCause` is the table of R162 to R167: the code each command can end with and its exact cause.
A command function answers an error exactly when the table lists it (`commandResult_eq_err_iff`), so a rule about one code reads off
that code's rows.
-/

namespace Sys2Proof.Proofs

open Sys2Proof.Machine Sys2Proof.Claims

/-- The command `i` ends with the error `e` on the operands of `l`, by the causes of R162 (ZMOD), R164 (NOINV), R165 (EVENMOD) and
R167 (OVF), in the order of their checks (R163). -/
def ErrorCause (W : Nat) (l : Latch) (e : CmdError) : Instr → Prop
  | .nop => False
  | .modred .. | .modsub .. | .modmul .. | .modexp .. => l.n = 0 ∧ e = .zmod
  | .montmul .. | .tomont .. | .frommont .. => l.n = 0 ∧ e = .zmod ∨ l.n ≠ 0 ∧ l.n % 2 = 0 ∧ e = .evenmod
  | .crtcomb .. => l.n = 0 ∧ e = .zmod ∨ l.n ≠ 0 ∧ (2 : Int) ^ W ≤ recombined l.a l.b l.n l.x l.y ∧ e = .ovf
  | .crtexp .. =>
    (l.n ≤ 1 ∨ l.x ≤ 1) ∧ e = .zmod ∨
      2 ≤ l.n ∧ 2 ≤ l.x ∧
        (Nat.gcd l.x l.n ≠ 1 ∧ e = .noinv ∨
          (∃ qInv, isInverse qInv l.x l.n ∧
            (2 : Int) ^ W ≤
              recombined (l.a ^ (l.b % (l.n - 1)) % l.n) (l.a ^ (l.b % (l.x - 1)) % l.x) l.n l.x qInv) ∧ e = .ovf)

/-! ### The checks the commands share -/

/-- A completion reports the error its outcome is, and no other (R166). -/
theorem complete_errcode_eq_some_iff {s : State} {l : Latch} {out : CmdResult} {e : CmdError} :
    (s.complete l out).errcode = some e ↔ out = .err e := by
  cases out <;> simp

/-- A command whose first check is N = 0 fails there with ZMOD, or later as its rest does (R162, R163). -/
theorem zmodCheck_eq_err_iff {N : Nat} {rest : CmdResult} {e : CmdError} :
    (if N = 0 then .err .zmod else rest) = .err e ↔ N = 0 ∧ e = .zmod ∨ N ≠ 0 ∧ rest = .err e := by
  split <;> simp [*, eq_comm]

/-- The modulus check of the Montgomery commands fails with ZMOD at 0 and with EVENMOD at an even N, provided the value exists for odd N:
the function's third branch is then never taken (R163, R165). -/
theorem withOddModulus_eq_err_iff {N : Nat} {v : Option Nat} {e : CmdError} (hv : N % 2 = 1 → ∃ r, v = some r) :
    withOddModulus N v = .err e ↔ N = 0 ∧ e = .zmod ∨ N ≠ 0 ∧ N % 2 = 0 ∧ e = .evenmod := by
  obtain rfl | hzero := eq_or_ne N 0
  · simp [withOddModulus_zmod, eq_comm]
  rcases Nat.mod_two_eq_zero_or_one N with heven | hodd
  · simp [withOddModulus_evenmod v hzero heven, hzero, heven, eq_comm]
  · obtain ⟨r, rfl⟩ := hv hodd
    simp [withOddModulus_ok r hodd, hzero, hodd]

/-- The Montgomery product exists for odd N (R16). -/
theorem exists_montgomery_eq_some (W a b : Nat) {N : Nat} (h : N % 2 = 1) : ∃ r, montgomery W a b N = some r := by
  obtain ⟨rinv, -, -, hr⟩ := montgomery_spec W a b h
  exact ⟨_, hr⟩

/-- The width check of a recombination fails exactly when the exact value is 2^W or more, with OVF (R167). -/
theorem fitted_crtCombine_eq_err_iff {W cP cQ p q qInv : Nat} {e : CmdError} (hp : 0 < p) :
    fitted W (crtCombine cP cQ p q qInv) = .err e ↔ (2 : Int) ^ W ≤ recombined cP cQ p q qInv ∧ e = .ovf := by
  rw [← crtCombine_cast cP cQ q qInv hp]
  rcases lt_or_ge (crtCombine cP cQ p q qInv) (2 ^ W) with hfit | hovf
  · have hnot : ¬ (2 : Int) ^ W ≤ crtCombine cP cQ p q qInv := by exact_mod_cast hfit.not_ge
    simp [fitted_ok hfit, hnot]
  · have hle : (2 : Int) ^ W ≤ crtCombine cP cQ p q qInv := by exact_mod_cast hovf
    simp [fitted_ovf hovf, hle, eq_comm]

/-! ### The table -/

/-- CRTEXP fails by its row of the table, in the order of its steps (R148); the inverse of q modulo p is unique, so "some inverse" is the
one of step 3. -/
theorem crtexp_eq_err_iff {W : Nat} {l : Latch} {e : CmdError} {d a b n x : Reg} :
    crtexp W l = .err e ↔ ErrorCause W l e (.crtexp d a b n x) := by
  by_cases hsmall : l.n ≤ 1 ∨ l.x ≤ 1
  · have hnot : ¬ (2 ≤ l.n ∧ 2 ≤ l.x) := by omega
    simp [crtexp_zmod hsmall, ErrorCause, hsmall, ← and_assoc, hnot, eq_comm]
  obtain ⟨hp, hq⟩ : 2 ≤ l.n ∧ 2 ≤ l.x := by omega
  by_cases hg : Nat.gcd l.x l.n = 1
  · obtain ⟨qInv, hlt, hmul, hfit⟩ := crtexp_fitted (l := l) (W := W) hp hq hg
    have hinv (v : Nat) : isInverse v l.x l.n ↔ v = qInv :=
      ⟨fun hv => isInverse_unique hv ⟨hlt, hmul⟩, fun hv => hv ▸ ⟨hlt, hmul⟩⟩
    simp [hfit, fitted_crtCombine_eq_err_iff (by omega : 0 < l.n), ErrorCause, hsmall, hp, hq, hg, hinv]
  · have hnone (v : Nat) : ¬ isInverse v l.x l.n := fun hv => hg (gcd_eq_one_of_isInverse hv)
    simp [crtexp_noinv hp hq hg, ErrorCause, hsmall, hp, hq, hg, hnone, eq_comm]

/-- A command function answers an error exactly for the causes of the table (R162 to R167). -/
theorem commandResult_eq_err_iff {i : Instr} {W : Nat} {l : Latch} {e : CmdError} :
    commandResult i W l = .err e ↔ ErrorCause W l e i := by
  cases i with
  | nop => simp [commandResult, nop, ErrorCause]
  | modred | modsub | modmul | modexp =>
    simp [commandResult, modred, modsub, modmul, modexp, zmodCheck_eq_err_iff, ErrorCause]
  | montmul | frommont => exact withOddModulus_eq_err_iff (exists_montgomery_eq_some W _ _)
  | tomont => exact withOddModulus_eq_err_iff fun _ => ⟨_, rfl⟩
  | crtcomb =>
    exact zmodCheck_eq_err_iff.trans <|
      or_congr_right <| and_congr_right fun hn => fitted_crtCombine_eq_err_iff (Nat.pos_of_ne_zero hn)
  | crtexp => exact crtexp_eq_err_iff

/-- A completed command reports an error exactly for the causes of the table (R161, R166). -/
theorem errcode_eq_some_iff_errorCause {i : Instr} {s t : State} {l : Latch} (e : CmdError) (hl : s.lat = some l)
    (hexec : exec i s = .next t) : t.errcode = some e ↔ ErrorCause s.cfg.width l e i := by
  rw [exec_inFlight i hl] at hexec
  cases hexec
  rw [complete_errcode_eq_some_iff, commandResult_eq_err_iff]

/-- Settles O24: the ZMOD rows of the table of causes. -/
theorem zmodExactlyForItsCauses : Obligations.ZmodExactlyForItsCauses := by
  intro i s t l hl hexec
  rw [errcode_eq_some_iff_errorCause .zmod hl hexec]
  cases i <;> simp [ErrorCause]

/-- Settles O25: the EVENMOD rows of the table of causes. -/
theorem evenmodExactlyForEvenMontgomeryModuli : Obligations.EvenmodExactlyForEvenMontgomeryModuli := by
  intro i s t l hl hexec
  rw [errcode_eq_some_iff_errorCause .evenmod hl hexec]
  cases i <;> simp [ErrorCause]

end Sys2Proof.Proofs
end

section
/-!
Soft reset over the bus, from 70_reset_and_hazards.md.
-/

namespace Sys2Proof.Proofs

open Sys2Proof.Machine Sys2Proof.Claims

/-- Bit 0 alone decides what a write to CTRL does: with SRST = 1 it is the soft reset, whatever CLROVR and BUSY are (R32, R181). -/
theorem writeCtrl_of_srst {s : State} {v : Word} (hsrst : v.getLsbD 0 = true) : s.writeCtrl v = s.softReset := if_pos hsrst

/-- Settles O50: the write reaches CTRL, where SRST = 1 makes it `State.softReset`. -/
theorem softResetKeepsTheOperandRegisters : Obligations.SoftResetKeepsTheOperandRegisters := by
  intro s v rest ha hsrst
  rw [step_write ha (by decide) (by decide), targetOf_ctrl, State.writeTarget, writeCtrl_of_srst hsrst]
  rfl

end Sys2Proof.Proofs
end

section
/-!
The decoder against the encoder, and the assembler's mnemonics, from 30_encoding.md: each statement is read off
`and_usedMask_eq_encode_iff`, off the fields by division (`nibble_val`), or off the table of `Mnemonic.build`.
-/

namespace Sys2Proof.Proofs

open Sys2Proof.Machine Sys2Proof.Claims

/-- Settles O3, by `decode_encode`: RSV, OP and the used fields are read back from the packed word. -/
theorem decodeOfEncodeIsTheCommand : Obligations.DecodeOfEncodeIsTheCommand := decode_encode

/-- Settles O4: to decode to a command is to be its word under the mask of the used fields. -/
theorem encodeOfDecodeClearsUnusedFields : Obligations.EncodeOfDecodeClearsUnusedFields :=
  fun _ _ h => (and_usedMask_eq_encode_iff.2 h).symm

/-- Settles O1: each field is a digit of the word to base 16, and the top one needs no remainder. -/
theorem commandWordHasEightNibbleFields : Obligations.CommandWordHasEightNibbleFields := by
  intro w
  have hw := w.isLt
  simp only [fieldOP, fieldRD, fieldRA, fieldRB, fieldRN, fieldRX, fieldRY, fieldRSV, nibble_val]
  omega

/-- Settles O2, by running the decoder on each word. -/
theorem specWordsDecodeAsListed : Obligations.SpecWordsDecodeAsListed := by
  unfold Obligations.SpecWordsDecodeAsListed
  decide

/-- A mnemonic that builds a command was given as many operands as its syntax column has (R81). -/
theorem length_eq_arity_of_build {m : Mnemonic} {rs : List Reg} {i : Instr} (h : m.build rs = some i) : rs.length = m.arity := by
  unfold Mnemonic.build at h
  split at h <;> simp_all [Mnemonic.arity]

/-- With as many operands as its syntax column has, a mnemonic builds a command (R73, R82). -/
theorem build_isSome_of_length {m : Mnemonic} {rs : List Reg} (h : rs.length = m.arity) : (m.build rs).isSome = true := by
  cases m with
  | nop => rw [List.eq_nil_of_length_eq_zero h]; rfl
  | modred | tomont | frommont | modsqr | montsqr | fermat =>
    obtain ⟨_, _, _, rfl⟩ := List.length_eq_three.1 h
    rfl
  | modsub | modmul | montmul | modexp | encrypt | decrypt | sign =>
    obtain ⟨_, _, _, _, rfl⟩ := List.length_eq_four.1 h
    rfl
  | crtexp | decryptcrt | signcrt =>
    match rs, h with
    | [_, _, _, _, _], _ => rfl
  | crtcomb =>
    match rs, h with
    | [_, _, _, _, _, _], _ => rfl

/-- Settles O7: the rows of the two tables by computation, the operand count from the two lemmas above. -/
theorem mnemonicsBuildTheTabledCommands : Obligations.MnemonicsBuildTheTabledCommands := by
  refine ⟨fun d a b n x y => ?_, fun r1 r2 r3 r4 r5 => ?_, fun m rs => ⟨fun h => ?_, build_isSome_of_length⟩⟩
  · exact ⟨rfl, rfl, rfl, rfl, rfl, rfl, rfl, rfl, rfl, rfl⟩
  · exact ⟨rfl, rfl, rfl, rfl, rfl, rfl, rfl, rfl⟩
  · obtain ⟨i, hi⟩ := Option.isSome_iff_exists.1 h
    exact length_eq_arity_of_build hi

end Sys2Proof.Proofs
end

section
/-!
The invariant of every run (State.Inv of Safety.lean), one lemma per operation of the block. A value is written by a host write of one
word, which stays inside the width (`replaceWord_lt`), or by a completion, whose value is below `resultBound`; no register is written
between an acceptance and its completion, so the latch stays fresh. An idle state needs only its registers and its ERR bit checked.
-/

namespace Sys2Proof.Proofs

open Sys2Proof.Machine Sys2Proof.Claims

/-! ### The range of a command's value (R101, R115) -/

/-- What the value of a command is below: the latched N where the command reduces by it, else 2^W (R115, R120, R130, R167). -/
def resultBound (W : Nat) (l : Latch) : Instr → Nat
  | .nop | .crtcomb .. | .crtexp .. => 2 ^ W
  | .modred .. | .modsub .. | .modmul .. | .montmul .. | .tomont .. | .frommont .. | .modexp .. => l.n

theorem resultBound_le {W : Nat} {l : Latch} (hN : l.n < 2 ^ W) (i : Instr) : resultBound W l i ≤ 2 ^ W := by
  cases i with
  | nop | crtcomb | crtexp => exact le_rfl
  | _ => exact hN.le

/-- A command whose first check is N = 0 answers a value only for N > 0, from its rest (R162, R163). -/
theorem zmodCheck_eq_ok_iff {N v : Nat} {rest : CmdResult} :
    (if N = 0 then .err .zmod else rest) = .ok v ↔ 0 < N ∧ rest = .ok v := by
  split <;> simp [*, Nat.pos_iff_ne_zero]

/-- The Montgomery commands answer a value only for N > 0, and then the one they were given (R163, R165). -/
theorem withOddModulus_eq_ok {N v : Nat} {value : Option Nat} (h : withOddModulus N value = .ok v) : 0 < N ∧ value = some v := by
  obtain ⟨hN, h⟩ := zmodCheck_eq_ok_iff.1 h
  refine ⟨hN, ?_⟩
  cases value <;> split at h <;> simp_all

/-- A Montgomery product is reduced (R16). -/
theorem montgomery_lt {W a b N v : Nat} (hN : 0 < N) (h : montgomery W a b N = some v) : v < N := by
  unfold montgomery at h
  split at h
  · cases h; exact Nat.mod_lt _ hN
  · cases h

/-- A value that passes the width check fits in W bits (R167). -/
theorem fitted_eq_ok {W m v : Nat} (h : fitted W m = .ok v) : v < 2 ^ W := by
  unfold fitted at h
  split at h
  · cases h
  · cases h; omega

/-- Every value a command answers is below its bound (R101, R115). -/
theorem commandResult_lt {i : Instr} {W v : Nat} {l : Latch} (h : commandResult i W l = .ok v) : v < resultBound W l i := by
  cases i with
  | nop => cases h
  | modred | modmul =>
    obtain ⟨hN, hv⟩ := zmodCheck_eq_ok_iff.1 h
    cases hv
    exact Nat.mod_lt _ hN
  | modexp =>
    obtain ⟨hN, hv⟩ := zmodCheck_eq_ok_iff.1 h
    cases hv
    rw [powmod_eq]
    exact Nat.mod_lt _ hN
  | modsub =>
    obtain ⟨hN, hv⟩ := zmodCheck_eq_ok_iff.1 h
    cases hv
    exact modZ_lt _ hN
  | montmul | frommont =>
    obtain ⟨hN, hv⟩ := withOddModulus_eq_ok h
    exact montgomery_lt hN hv
  | tomont =>
    obtain ⟨hN, hv⟩ := withOddModulus_eq_ok (value := some _) h
    cases hv
    exact Nat.mod_lt _ hN
  | crtcomb =>
    obtain ⟨-, hv⟩ := zmodCheck_eq_ok_iff.1 h
    exact fitted_eq_ok hv
  | crtexp =>
    simp only [commandResult, crtexp] at h
    split at h
    · cases h
    · split at h
      · cases h
      · exact fitted_eq_ok h

/-- Settles O28: a command other than NOP that shows no error has written a value, which is below its bound. -/
theorem resultsFitTheirRange : Obligations.ResultsFitTheirRange := by
  intro i s t l hl hN hexec hok hnop
  rw [exec_inFlight i hl] at hexec
  cases hexec
  cases hout : commandResult i s.cfg.width l with
  | okNone => exact absurd hout (commandResult_ne_okNone hnop _ _)
  | err e => simp [hout] at hok
  | ok v =>
    have hlt := commandResult_lt hout
    have hx : (s.complete l (.ok v)).x l.d = v := by simp
    rw [hx]
    refine ⟨hlt.trans_le (resultBound_le hN i), ?_⟩
    cases i with
    | nop | crtcomb | crtexp => trivial
    | _ => exact hlt

/-! ### The invariant, operation by operation -/

section Inv
variable {s : State}

/-- With no command in flight only the registers and the ERR bit are left to check. -/
theorem inv_of_idle (hl : s.lat = none) (hregs : s.regsInRange) (herr : s.errAgrees) : s.Inv where
  regs := hregs
  latch := by intro l h; simp [hl] at h
  cmd := by intro l h; simp [hl] at h
  err := herr
  clean := by intro h; simp [State.busy, hl] at h

/-- The model's own fields are not part of the invariant. -/
theorem inv_agenda (h : s.Inv) (es : List Event) : State.Inv { s with agenda := es } :=
  ⟨h.regs, h.latch, h.cmd, h.err, h.clean⟩

theorem inv_answer (h : s.Inv) (r : Response) (drawn : Bool) : (s.answer r drawn).Inv :=
  ⟨h.regs, h.latch, h.cmd, h.err, h.clean⟩

/-- A register keeps its range when the value written is in range (R20). -/
theorem regsInRange_setX (h : s.regsInRange) {r : Reg} {v : Nat} (hv : v < 2 ^ s.cfg.width) : (s.setX r v).regsInRange := by
  intro r'
  rw [State.x_setX, State.setX_cfg]
  split
  · exact hv
  · exact h r'

/-- Acceptance latches what it reads, and clears the error (R36). -/
theorem inv_accept (h : s.Inv) (w : Word) : (s.accept w).Inv where
  regs := h.regs
  latch := by
    intro l hl
    cases hl
    rfl
  cmd := by
    intro l hl
    cases hl
    rfl
  err := rfl
  clean := fun _ => ⟨rfl, rfl⟩

/-- The outcome of the command in flight is in range: the fresh latch holds a W-bit N (R20, R36, R101). -/
theorem outcome_lt (h : s.Inv) {l : Latch} (hl : s.lat = some l) {i : Instr} {v : Nat}
    (hv : commandResult i s.cfg.width l = .ok v) : v < 2 ^ s.cfg.width := by
  have hN : l.n < 2 ^ s.cfg.width := by
    rw [h.latch l hl, latchOf_n]
    exact h.regs _
  exact (commandResult_lt hv).trans_le (resultBound_le hN i)

/-- A completion with an outcome in range leaves an idle state whose ERR follows its code (R166). -/
theorem inv_complete (h : s.Inv) {l : Latch} {out : CmdResult} (hout : ∀ v, out = .ok v → v < 2 ^ s.cfg.width) :
    (s.complete l out).Inv := by
  refine inv_of_idle (State.complete_lat ..) ?_ (State.complete_err_eq ..)
  cases out with
  | ok v => exact regsInRange_setX h.regs (hout v rfl)
  | okNone => exact h.regs
  | err e => exact h.regs

theorem inv_hardReset (s : State) : s.hardReset.Inv :=
  inv_of_idle rfl (fun r => by rw [State.x_hardReset]; exact s.drawnOperand_lt r) rfl

/-- Every write keeps the invariant, by what it does (R22). -/
theorem inv_of_writeEffect (h : s.Inv) {v : Word} {tg : Target} {t : State} (hw : WriteEffect s v tg t) : t.Inv := by
  cases hw with
  | accepted => exact inv_accept h v
  | softReset => exact inv_of_idle rfl h.regs rfl
  | operandWritten r k hb hk =>
    exact inv_of_idle (s.busy_eq_false_iff.1 hb) (regsInRange_setX h.regs (replaceWord_lt v (h.regs r) hk)) h.err
  | _ => exact ⟨h.regs, h.latch, h.cmd, h.err, h.clean⟩

theorem cfg_of_writeEffect {v : Word} {tg : Target} {t : State} (hw : WriteEffect s v tg t) : t.cfg = s.cfg := by
  cases hw <;> rfl

end Inv

/-- Settles O32: the invariant is kept by each of the five outcomes of a step. -/
theorem everyStepKeepsTheInvariant : Obligations.EveryStepKeepsTheInvariant := by
  intro s t h hstep
  cases step_outcome hstep with
  | idleTurn rest => exact ⟨inv_agenda h rest, rfl⟩
  | completion rest l out hn hl hout =>
    refine ⟨inv_complete (inv_agenda h rest) fun v hv => ?_, State.complete_cfg ..⟩
    obtain ⟨i, -, rfl⟩ | ⟨e, -, rfl⟩ := hout
    · exact outcome_lt h hl hv
    · cases hv
  | read addr n rest r drawn => exact ⟨inv_answer (inv_agenda h rest) r drawn, rfl⟩
  | write off v rest u ha h4 hw => exact ⟨inv_answer (inv_of_writeEffect (inv_agenda h rest) hw) _ _, (cfg_of_writeEffect hw :)⟩
  | hardReset rest => exact ⟨inv_hardReset _, rfl⟩

/-- Settles O33: after reset the block is idle and the registers are 0. -/
theorem resetHasTheInvariant : Obligations.ResetHasTheInvariant := by
  have hreset (c : Config) : (State.resetOf c).Inv :=
    inv_of_idle rfl (fun r => by simp [State.x, State.resetOf]) rfl
  exact ⟨hreset, hreset Config.reference⟩

end Sys2Proof.Proofs
end

section
/-!
One completion, for every command: the shape and the frame of R166 and R168, the operands an outcome depends on (R73, R101), and the
engine's turn as a step. All rest on `exec_inFlight`: `exec` is `State.complete` of the command function on the latch.
-/

namespace Sys2Proof.Proofs

open Sys2Proof.Machine Sys2Proof.Claims

/-! ### The shape and the frame of a completion (R166, R168) -/

/-- Settles O18: the outcome is that of `engineStep_cases`, and each of its three forms is an update of R166. -/
theorem engineTurnIsOneCompletion : Obligations.EngineTurnIsOneCompletion := by
  intro s l hl
  obtain ⟨hidle, -⟩ | ⟨l', out, hl', hstep, hout⟩ := engineStep_cases s
  · simp [hl] at hidle
  obtain rfl : l = l' := Option.some.inj (hl.symm.trans hl')
  refine ⟨out, fun e he => ?_, ?_⟩
  · obtain ⟨i, hi, -⟩ | ⟨-, -, hill⟩ := hout
    · rw [he] at hi; cases hi
    · exact hill
  · rw [hstep]
    cases out <;> rfl

/-- Settles O19: with a command in flight `exec` completes it, with none it changes nothing. -/
theorem everyCommandCompletes : Obligations.EveryCommandCompletes := by
  intro i s
  cases hl : s.lat with
  | none =>
    have hb : s.busy = false := s.busy_eq_false_iff.2 hl
    exact ⟨s, exec_idle i hl, hb, fun h => by simp [hb] at h, fun _ => rfl⟩
  | some l =>
    have hb : s.busy = true := s.busy_eq_true_iff.2 ⟨l, hl⟩
    exact ⟨_, exec_inFlight i hl, State.complete_busy .., fun _ => ⟨State.complete_done .., State.complete_err_eq ..⟩,
      fun h => by simp [hb] at h⟩

/-- A register that is not the destination keeps its mark (R20, R166). -/
theorem complete_isWritten_of_ne (s : State) (l : Latch) (out : CmdResult) {r : Reg} (h : r ≠ l.d) :
    (s.complete l out).isWritten r = s.isWritten r := by
  cases out <;> simp [h]

/-- Settles O22: only `OK(v)` writes a register, the destination, and NOP does not end with it. -/
theorem completionFrame : Obligations.CompletionFrame := by
  intro i s t l hl hexec
  rw [exec_inFlight i hl] at hexec
  cases hexec
  refine ⟨fun r hr => ⟨State.complete_x_of_ne _ _ _ hr, complete_isWritten_of_ne _ _ _ hr⟩, ?_, by simp⟩
  rintro rfl
  rfl

/-- Settles O23: of the three outcomes only an error leaves a code, and it writes nothing. -/
theorem failedCommandsWriteNoRegister : Obligations.FailedCommandsWriteNoRegister := by
  intro s t l hl hstep herr
  obtain ⟨hidle, -⟩ | ⟨l', out, -, hcomplete, -⟩ := engineStep_cases s
  · simp [hl] at hidle
  cases hcomplete.symm.trans hstep
  cases out with
  | ok v => exact absurd rfl herr
  | okNone => exact absurd rfl herr
  | err e => exact ⟨rfl, rfl, rfl, rfl⟩

/-! ### What an outcome depends on (R73, R101) -/

/-- The two latches hold the same operands in the fields the command reads (R73, column "reads"). -/
def readsAlike (l l' : Latch) : Instr → Prop
  | .nop => True
  | .modred .. | .tomont .. | .frommont .. => l.a = l'.a ∧ l.n = l'.n
  | .modsub .. | .modmul .. | .montmul .. | .modexp .. => l.a = l'.a ∧ l.b = l'.b ∧ l.n = l'.n
  | .crtcomb .. => l.a = l'.a ∧ l.b = l'.b ∧ l.n = l'.n ∧ l.x = l'.x ∧ l.y = l'.y
  | .crtexp .. => l.a = l'.a ∧ l.b = l'.b ∧ l.n = l'.n ∧ l.x = l'.x

/-- A command function reads only the operands of its row: not the word, not the destination, not another operand. -/
theorem commandResult_congr {l l' : Latch} {i : Instr} (W : Nat) (h : readsAlike l l' i) :
    commandResult i W l = commandResult i W l' := by
  cases i with
  | nop => rfl
  | modred | tomont | frommont =>
    obtain ⟨ha, hn⟩ := h
    simp only [commandResult, modred, tomont, frommont, ha, hn]
  | modsub | modmul | montmul | modexp =>
    obtain ⟨ha, hb, hn⟩ := h
    simp only [commandResult, modsub, modmul, montmul, modexp, ha, hb, hn]
  | crtcomb =>
    obtain ⟨ha, hb, hn, hx, hy⟩ := h
    simp only [commandResult, crtcomb, ha, hb, hn, hx, hy]
  | crtexp =>
    obtain ⟨ha, hb, hn, hx⟩ := h
    simp only [commandResult, crtexp, ha, hb, hn, hx]

/-- Latches with the same five operands are read alike by every command. -/
theorem readsAlike_of_operands {l l' : Latch} (ha : l.a = l'.a) (hb : l.b = l'.b) (hn : l.n = l'.n) (hx : l.x = l'.x)
    (hy : l.y = l'.y) (i : Instr) : readsAlike l l' i := by
  cases i <;> simp [readsAlike, ha, hb, hn, hx, hy]

/-- A word of the command latches alike in two states that agree on the command's sources (R36, R73). -/
theorem readsAlike_of_sources {w : Word} {i : Instr} {s s' : State} (hf : fieldsHold w i)
    (hs : ∀ r ∈ i.sources, s.x r = s'.x r) : readsAlike (latchOf w s) (latchOf w s') i := by
  cases i <;> simp_all [readsAlike, fieldsHold, Instr.sources]

/-- Settles O20: by `exec_inFlight` the outcome is that of the command function, which reads the operands and W only. -/
theorem outcomeDependsOnLatchedOperandsOnly : Obligations.OutcomeDependsOnLatchedOperandsOnly := by
  intro i s s' l l' hl hl' hW ha hb hn hx hy
  refine ⟨commandResult i s.cfg.width l, exec_inFlight i hl, ?_⟩
  rw [exec_inFlight i hl', commandResult_congr _ (readsAlike_of_operands ha hb hn hx hy i), hW]

/-- Settles O21: the two latches are read alike, since the used fields of the word name the sources. -/
theorem commandReadsOnlyItsSources : Obligations.CommandReadsOnlyItsSources := by
  intro i w s s' hd hW hs
  obtain ⟨-, -, hf⟩ := decode_eq_ok_iff.1 hd
  simp only [← latchOf_eq_latched]
  refine ⟨commandResult i s.cfg.width (latchOf w s), exec_accept i s w, ?_⟩
  rw [exec_accept, commandResult_congr _ (readsAlike_of_sources hf hs), hW]

/-! ### The engine's turn as a step (R18, R78) -/

/-- The engine's turn is taken off the agenda, also when the agenda is empty (R18; log 6). -/
theorem step_of_engineNext {s : State} {rest : List Event} (h : engineNext s rest) :
    step s = engineStep { s with agenda := rest } := by
  obtain ha | ⟨ha, rfl⟩ := h
  · exact step_engine ha
  · rw [step_nil ha, ← ha]

/-- Settles O29: the word in flight decodes to `i`, so the engine's turn is `exec i`. -/
theorem stepRunsTheDecodedCommand : Obligations.StepRunsTheDecodedCommand := by
  intro s rest l i hn hl hd
  rw [step_of_engineNext hn]
  exact engineStep_ok (s := { s with agenda := rest }) hl hd

/-- A word of the opcode table that stands for a command decodes to it (R79). -/
theorem decode_of_decodeTableWord {nbits w : Nat} {i : Instr} (h : decodeTableWord nbits w = some i) :
    decode (BitVec.ofNat 32 (w % 2 ^ nbits)) = .ok i := by
  unfold decodeTableWord at h
  split at h
  · split at h
    · cases h; assumption
    · cases h
  · cases h

/-- Settles O30: the engine's turn is next, with the word just accepted in flight. -/
theorem placedCommandIsRunNext : Obligations.PlacedCommandIsRunNext := by
  intro s nbits w i h
  rw [State.withFetchWord, step_engine rfl]
  exact engineStep_ok (State.accept_lat s _) (decode_of_decodeTableWord h)

end Sys2Proof.Proofs
end

section
/-!
The rows of NOINV and OVF in the table of causes of 60_exceptions.md.
-/

namespace Sys2Proof.Proofs

open Sys2Proof.Machine Sys2Proof.Claims

/-- Settles O26: the NOINV row of the table of causes. -/
theorem noinvExactlyForCommonFactors : Obligations.NoinvExactlyForCommonFactors := by
  intro i s t l hl hexec
  rw [errcode_eq_some_iff_errorCause .noinv hl hexec]
  cases i <;> simp [ErrorCause]

/-- Settles O27: the OVF rows of the table of causes. -/
theorem ovfExactlyForTooWideCrtValues : Obligations.OvfExactlyForTooWideCrtValues := by
  intro i s t l hl hexec
  rw [errcode_eq_some_iff_errorCause .ovf hl hexec]
  cases i <;> simp [ErrorCause]

end Sys2Proof.Proofs
end

section
/-!
The host's side of a step, from 20_memory.md and 70_reset_and_hazards.md: which access stops the machine (`step_next_or_busError`), that
every other step takes its turn off the agenda, so that a command in flight ends (`run_reaches_idle`), and what a step with a hazard and
one without do (`hazard_of_nextReads`, `hazard_of_nextWrites`).
-/

namespace Sys2Proof.Proofs

open Sys2Proof.Machine Sys2Proof.Claims

/-! ### What stops the machine (R51) -/

/-- An undefined access, in the words of R51. -/
theorem defined_eq_false_iff {c : Config} {a : Access} :
    a.defined c = false ↔ ¬ (a.bytes = 4 ∧ a.addr % 4 = 0 ∧ c.base ≤ a.addr ∧ a.addr < c.base + 0x4000) := by
  rw [← Access.defined_iff, Bool.not_eq_true]

/-- The port answers ERROR exactly to an undefined access (R50, R51). -/
theorem respond_eq_error_iff {s : State} {a : Access} : s.respond a = .error 0x00000000#32 ↔ a.defined s.cfg = false := by
  unfold State.respond
  cases a <;> split <;> simp_all

/-- The engine's turn always answers a next state (R166). -/
theorem exists_engineStep_eq_next (s : State) : ∃ t, engineStep s = .next t := by
  obtain ⟨-, h⟩ | ⟨l, out, -, h, -⟩ := engineStep_cases s
  · exact ⟨_, h⟩
  · exact ⟨_, h⟩

/-- A step answers a next state, or it is an undefined access and stops with its fault (R51; log 9). -/
theorem step_next_or_busError (s : State) :
    (∃ t, step s = .next t) ∨
      ∃ a rest, s.agenda = .host a :: rest ∧ a.defined s.cfg = false ∧ step s = .fault (.busError a) := by
  match ha : s.agenda with
  | [] => exact .inl (step_nil ha ▸ exists_engineStep_eq_next _)
  | .engine :: rest => exact .inl (step_engine ha ▸ exists_engineStep_eq_next _)
  | .hardReset :: rest => exact .inl ⟨_, step_hardReset ha⟩
  | .host a :: rest =>
    rw [step_host ha]
    cases hd : a.defined s.cfg with
    | false => exact .inr ⟨a, rest, rfl, hd, hostStep_undefined hd⟩
    | true => exact .inl ⟨_, hostStep_defined (s := { s with agenda := rest }) hd⟩

/-- A step faults exactly at an undefined access, with that access (R51; log 9). -/
theorem step_eq_fault_iff {s : State} {f : Fault} :
    step s = .fault f ↔ ∃ a rest, s.agenda = .host a :: rest ∧ f = .busError a ∧ a.defined s.cfg = false := by
  constructor
  · intro h
    obtain ⟨t, ht⟩ | ⟨a, rest, ha, hd, hf⟩ := step_next_or_busError s
    · cases ht.symm.trans h
    · cases hf.symm.trans h
      exact ⟨a, rest, ha, rfl, hd⟩
  · rintro ⟨a, rest, ha, rfl, hd⟩
    rw [step_host ha]
    exact hostStep_undefined hd

/-- Settles O31: the port's ERROR and the fault are of the same accesses, and a step has no third end. -/
theorem onlyUndefinedAccessesStopTheMachine : Obligations.OnlyUndefinedAccessesStopTheMachine := by
  refine ⟨fun s a => ?_, fun s f => ?_, fun s r h => ?_⟩
  · rw [respond_eq_error_iff, defined_eq_false_iff]
  · simp only [step_eq_fault_iff, defined_eq_false_iff]
  · obtain ⟨t, ht⟩ | ⟨a, rest, -, -, hf⟩ := step_next_or_busError s
    · cases ht.symm.trans h
    · cases hf.symm.trans h

/-! ### A command in flight ends (R18, R196) -/

/-- A step takes its turn off the agenda and keeps the configuration (R18; log 6). -/
theorem step_agenda_cfg {s t : State} (h : step s = .next t) : t.agenda = s.agenda.tail ∧ t.cfg = s.cfg := by
  obtain ⟨rest, hn, hturn⟩ | ⟨a, rest, ha, -, rfl⟩ | ⟨rest, ha, rfl⟩ := step_next_cases h
  · have htail : s.agenda.tail = rest := by
      obtain ha | ⟨ha, rfl⟩ := hn <;> rw [ha] <;> rfl
    obtain ⟨-, he⟩ | ⟨l, out, -, he, -⟩ := engineStep_cases { s with agenda := rest }
    all_goals cases he.symm.trans hturn; simp [htail]
  · simp [ha]
  · simp [ha]

/-- After as many steps as there are turns in the agenda the engine has had its turn or has it next: within one step more, no command
is in flight. -/
theorem run_reaches_idle (s : State) (hdef : ∀ a, .host a ∈ s.agenda → a.defined s.cfg = true) :
    ∃ k, k ≤ s.agenda.length + 1 ∧ ∃ t, Sys2Proof.core.run k s = .next t ∧ t.busy = false := by
  generalize hes : s.agenda = es at hdef
  induction es generalizing s with
  | nil =>
    obtain ⟨hidle, hstep⟩ | ⟨l, out, -, hstep, -⟩ := engineStep_cases s
    · exact ⟨0, by simp, s, rfl, s.busy_eq_false_iff.2 hidle⟩
    · exact ⟨1, by simp, _, core_run_succ (k := 0) ((step_nil hes).trans hstep), State.complete_busy ..⟩
  | cons e es ih =>
    obtain ⟨t, ht⟩ | ⟨a, rest, ha, hd, -⟩ := step_next_or_busError s
    · obtain ⟨hagenda, hcfg⟩ := step_agenda_cfg ht
      rw [hes] at hagenda
      obtain ⟨k, hk, u, hrun, hu⟩ := ih t hagenda fun a hmem => hcfg ▸ hdef a (List.mem_cons_of_mem e hmem)
      exact ⟨k + 1, by simpa using hk, u, (core_run_succ ht).trans hrun, hu⟩
    · rw [hes] at ha
      cases ha
      simp [hd] at hdef

/-- Settles O51, by `run_reaches_idle`, which needs no command in flight. -/
theorem commandsInFlightEnd : Obligations.CommandsInFlightEnd := fun s _ hdef => run_reaches_idle s hdef

/-! ### Reads and hazards (R56, R60, R184 to R187) -/

/-- Settles O40: `step_read` is the whole effect of a read, and `State.drawsOn_targetOf` says when it draws. -/
theorem readsHaveNoSideEffects : Obligations.ReadsHaveNoSideEffects := by
  intro s off rest ha hlt h4
  refine ⟨s.readData (targetOf off), ?_⟩
  rw [step_read ha hlt h4]
  simp only [State.drawsOn_targetOf]

/-- The access of a step that answers a next state is defined (R51). -/
theorem defined_of_step_eq_next {s t : State} {a : Access} {rest : List Event} (h : step s = .next t)
    (ha : s.agenda = .host a :: rest) : a.defined s.cfg = true := by
  by_contra hd
  cases (step_eq_fault_iff.2 ⟨a, rest, ha, rfl, Bool.eq_false_of_not_eq_true hd⟩).symm.trans h

/-- A read that the block defines is a 4-byte read at an aligned offset from BASE (R9, R51). -/
theorem exists_offset_of_read_defined {c : Config} {addr n : Nat} (h : (Access.read addr n).defined c = true) :
    ∃ off, addr = c.base + off ∧ n = 4 ∧ off < 0x4000 ∧ off % 4 = 0 := by
  -- Whether an access is defined does not depend on its direction.
  obtain ⟨off, haddr, hn, hlt, h4⟩ := exists_offset_of_write_defined (v := 0) (h : (Access.write addr n 0).defined c = true)
  exact ⟨off, haddr, hn, hlt, h4⟩

section Hazard
variable {s : State} {off : Nat} {v : Word} {rest : List Event}

/-- A read runs into a hazard exactly when it is a free draw (R56, R185). -/
theorem hazard_of_nextReads (ha : nextReads s off rest) (hlt : off < 0x4000) (h4 : off % 4 = 0) :
    s.hazard = if s.drawsOn (targetOf off) then some .resultRead else none := by
  simp only [State.hazard, show s.agenda = _ from ha, State.accessHazard, Access.read_defined s.cfg hlt h4, Access.addr, State.offset,
    Nat.add_sub_cancel_left]
  cases targetOf off with
  | operand r k => cases hb : s.busy <;> simp [State.drawsOn, hb]
  | _ => simp [State.drawsOn]

/-- A write runs into a hazard exactly when it is of the operand window or of CMD while a command is in flight (R186, R187). -/
theorem hazard_of_nextWrites (ha : nextWrites s off v rest) (hlt : off < 0x4000) (h4 : off % 4 = 0) :
    s.hazard = if s.drawsOn (targetOf off) then some .operandWrite
      else if s.busy = true ∧ targetOf off = .cmd then some .commandIssue else none := by
  simp only [State.hazard, show s.agenda = _ from ha, State.accessHazard, Access.write_defined s.cfg v hlt h4, Access.addr, State.offset,
    Nat.add_sub_cancel_left]
  cases targetOf off with
  | operand r k => cases hb : s.busy <;> simp [State.drawsOn, hb]
  | cmd => cases s.busy <;> simp [State.drawsOn]
  | _ => simp [State.drawsOn]

/-- A write of the operand window or of CMD while a command is in flight is dropped and only sets OVR (R29, R55). -/
theorem eq_setOvr_of_writeEffect {t : State} {tg : Target} (h : WriteEffect s v tg t)
    (hdrop : s.drawsOn tg = true ∨ s.busy = true ∧ tg = .cmd) : t = s.setOvr := by
  cases h <;> simp_all [State.drawsOn]

/-- A write that is not dropped does not raise OVR (R29). -/
theorem ovr_eq_false_of_writeEffect {t : State} {tg : Target} (h : WriteEffect s v tg t)
    (hdrop : ¬ (s.drawsOn tg = true ∨ s.busy = true ∧ tg = .cmd)) (hovr : s.ovr = false) : t.ovr = false := by
  cases h <;> simp_all [State.drawsOn]

/-- A free draw is the free word at the counter (R56; log 5). -/
theorem readData_of_drawsOn {tg : Target} (h : s.drawsOn tg = true) : s.readData tg = Config.freeWord s.draws := by
  cases tg with
  | operand r k => exact readData_operand_busy h
  | _ => cases h

/-- The engine's turn runs into no hazard (R184). -/
theorem hazard_of_engineNext (h : engineNext s rest) : s.hazard = none := by
  obtain ha | ⟨ha, -⟩ := h <;> simp [State.hazard, ha]

end Hazard

/-- Settles O53: only a host access runs into a hazard, and of the events without one none sets OVR. -/
theorem hazardsAreDroppedWritesAndDrawnReads : Obligations.HazardsAreDroppedWritesAndDrawnReads := by
  intro s t h
  cases step_outcome h with
  | idleTurn rest hn => simp [hazard_of_engineNext hn]
  | completion rest l out hn => simp [hazard_of_engineNext hn]
  | hardReset rest ha => simp [State.hazard, ha]
  | read addr n rest r drawn ha =>
    obtain ⟨off, rfl, rfl, hlt, h4⟩ := exists_offset_of_read_defined (defined_of_step_eq_next h ha)
    rw [← Host.Outcome.next.inj ((step_read ha hlt h4).symm.trans h), hazard_of_nextReads ha hlt h4]
    by_cases hdraw : s.drawsOn (targetOf off) = true
    · simp [hdraw, readData_of_drawsOn hdraw]
    · simp [hdraw]
  | write off v rest u ha h4 hw =>
    obtain ⟨-, -, -, hhi⟩ := (Access.defined_iff _ _).1 (defined_of_step_eq_next h ha)
    rw [hazard_of_nextWrites ha (Nat.add_lt_add_iff_left.1 hhi) h4]
    by_cases hdraw : s.drawsOn (targetOf off) = true
    · rw [if_pos hdraw, eq_setOvr_of_writeEffect hw (.inl hdraw)]
      simp
    by_cases hcmd : s.busy = true ∧ targetOf off = .cmd
    · rw [if_neg hdraw, if_pos hcmd, eq_setOvr_of_writeEffect hw (.inr hcmd)]
      simp
    · rw [if_neg hdraw, if_neg hcmd]
      simpa using ovr_eq_false_of_writeEffect hw (not_or.2 ⟨hdraw, hcmd⟩)

end Sys2Proof.Proofs
end

section
/-!
Byte order (20_memory.md) and what reset leaves (10_state.md, 70_reset_and_hazards.md).
-/

namespace Sys2Proof.Proofs

open Sys2Proof.Machine Sys2Proof.Claims

/-- Settles O44: bit `i` of either byte is bit `32k + 8b + i` of the value. -/
theorem wordsAreLittleEndianBytes : Obligations.WordsAreLittleEndianBytes := by
  intro v k b hb
  apply BitVec.eq_of_getLsbD_eq
  intro i hi
  have hword : 8 * b + i < 32 := by omega
  have hbit : i + 8 * (4 * k + b) = 8 * b + i + 32 * k := by ring
  simp only [operandByte, operandWord, BitVec.getLsbD_extractLsb', BitVec.getLsbD_ofNat, Nat.testBit_div_two_pow, hi, hword, hbit,
    decide_true, Bool.true_and]

/-- Settles O48: `State.resetOf` holds these values, and the packed words are read as numbers. -/
theorem resetLeavesTheListedValues : Obligations.ResetLeavesTheListedValues := by
  intro c
  refine ⟨State.resetOf c, rfl, rfl, paramWord_toNat _, rfl, BitVec.eq_of_toNat_eq (statusWord_toNat _),
    BitVec.eq_of_toNat_eq (oneBitWord_toNat false), BitVec.eq_of_toNat_eq (oneBitWord_toNat false), rfl, rfl, fun r => ?_⟩
  simp [State.isWritten, State.resetOf]

/-- Settles O49: the registers of `State.hardReset` are the drawn operands, which are in range. -/
theorem hardwareResetRestoresTheControlRegisters : Obligations.HardwareResetRestoresTheControlRegisters := by
  intro s rest ha
  refine ⟨Vector.ofFn s.drawnOperand, fun r => ?_, step_hardReset ha⟩
  simpa using s.drawnOperand_lt r

end Sys2Proof.Proofs
end
